-- ==== Sys2Proof/Word.lean ====
section
/-! DEFINITION. The words of the block: a byte (R26, R39) and the packed inputs of one edge (R42). -/

namespace Sys2Proof

/-- A byte: 8 bits, unsigned (00_scope.md section 5). -/
abbrev Byte := BitVec 8

/-- A CYC word (R42). Its width is `20 + ADDR_W`; `ADDR_W` is at most 8 in a well-formed configuration (R4, R5), so
28 bits hold every one of them. A word with a bit at or above `20 + ADDR_W` is no CYC word of that configuration. -/
abbrev CycWord := BitVec 28

end Sys2Proof
end

