-- ==== Sys2Proof/Syntax.lean ====
section
/-! DEFINITION. The instructions of the block: the events it decodes at its ports (R2), one constructor per row of
spec/opcode_table.json; the fields of a CYC word (R42); what the environment drives at one edge. -/

namespace Sys2Proof

/-- A refresh write: the operands of BUF_WR (R69), an unsigned slot index and the byte to write. -/
structure Refresh where
  addr : Nat
  data : Byte
deriving DecidableEq, Repr, Inhabited

/-- The instructions. Several events may share one edge (R43, R45): a word's constructor is its event of highest
priority (R86), and the other events of the edge that R43 still looks at are its operands: `clr` is `flag_clr`, `wr`
the refresh write when `buf_we = 1` (assumption log 4). -/
inductive Instr where
  /-- RESET (R95). `wr` matters only to its refusal, which is checked before reset (R86 item 1). -/
  | reset (wr : Option Refresh)
  /-- RESYNC (R57): a byte event whose `rx_byte` is `MAGIC`. -/
  | resync (clr : Bool) (wr : Option Refresh)
  /-- ADVANCE.EMIT (R58): a byte event with another `rx_byte`, in the case `cursor < VAL_COUNT`. -/
  | advanceEmit (rx : Byte) (clr : Bool) (wr : Option Refresh)
  /-- ADVANCE.PAD (R59): the same word in the case `cursor >= VAL_COUNT` (R41: the case is the state's). -/
  | advancePad (rx : Byte) (clr : Bool) (wr : Option Refresh)
  /-- FLAG_CLR (R67) at an edge with neither reset nor byte event. -/
  | flagClr (wr : Option Refresh)
  /-- BUF_WR (R69) at an edge with no other event. -/
  | bufWr (wr : Refresh)
  /-- IDLE (R71). -/
  | idle
deriving DecidableEq, Repr, Inhabited

/-- The two classes of a received byte, format RX8 (R40). -/
inductive RxClass where
  | resync
  | advance
deriving DecidableEq, Repr

/-- The fields of a CYC word: the input ports sampled at one edge (R42). -/
structure CycFields where
  rxByte   : Byte := 0
  rxValid  : Bool := false
  flagClr  : Bool := false
  bufWe    : Bool := false
  rst      : Bool := false
  bufWaddr : Nat := 0
  bufWdata : Byte := 0
deriving DecidableEq, Repr, Inhabited

/-- The block's ports (R38). -/
inductive Port where
  | clk | rst | rxValid | rxByte | txByte | flag | flagClr | bufWe | bufWaddr | bufWdata
deriving DecidableEq, Repr

/-- The direction of a port (R38). -/
inductive PortDir where
  | input
  | output
deriving DecidableEq, Repr

/-- The agents beside the block (R91), each with the ports it may drive (R90). -/
inductive Agent where
  | serializer
  | host
  | initiator
deriving DecidableEq, Repr

/-- What the environment does at one rising edge: the CYC word at the input ports, and the serializer's side of the
exchange (R46, R47; assumption log 10, 19): whether it loads `tx_byte` at this edge (an `E_load`), whether it gives up
here the byte event of the exchange it had last begun (R79 and R93: a missed event), and whether the byte event at this
edge is an extra one, of no exchange (R93). None of the three reaches the block. -/
structure Edge where
  cyc     : CycWord
  load    : Bool := false
  dropped : Bool := false
  extra   : Bool := false
deriving DecidableEq, Repr, Inhabited

end Sys2Proof
end

