-- ==== Sys2Proof/Config.lean ====
section
/-! DEFINITION. The configuration record `cfg` (R4), its derived widths (D4), the reference configuration, and the free
values of the model. -/

namespace Sys2Proof

/-- The configuration (R4): constants of the machine (R6), which no step changes. -/
structure Config where
  /-- `MAGIC`, the synchronization byte. -/
  magic      : Byte
  /-- `PAD`, the byte emitted once the buffer is exhausted. -/
  pad        : Byte
  /-- `BUF_CAP`, the capacity of the buffer in bytes. -/
  bufCap     : Nat
  /-- `VAL_COUNT`, the logical length of the buffer. -/
  valCount   : Nat
  /-- `INIT_BUF`, slot by slot; `none`, or no entry, is a slot left unspecified. -/
  initBuf    : List (Option Byte)
  /-- `HAS_REFRESH`, whether the buffer write port exists. -/
  hasRefresh : Bool
  /-- `FRAME_BODY`, the payload bytes per frame on the initiator's side; the block itself never reads it. -/
  frameBody  : Nat
deriving DecidableEq, Repr, Inhabited

/-- `ceil(log2 n)`, the bits that number `n` things. -/
def clog2 (n : Nat) : Nat := if n ≤ 1 then 0 else Nat.log2 (n - 1) + 1

/-- `ADDR_W`, the width of a buffer index (R4, D4). -/
def Config.addrW (c : Config) : Nat := max 1 (clog2 c.bufCap)

/-- `CUR_W`, the width of the cursor register (R4, D4). -/
def Config.curW (c : Config) : Nat := clog2 (c.bufCap + 1)

/-- What `INIT_BUF` gives slot `i`: a byte, or nothing where it leaves the slot unspecified (R4, R23). -/
def Config.initSlot (c : Config) (i : Nat) : Option Byte := (c.initBuf[i]?).join

/-- The reference configuration, the source's demo values (R4, normative for it). -/
def Config.reference : Config where
  magic := 0xF0
  pad := 0x00
  bufCap := 16
  valCount := 5
  initBuf := [some 0x59, some 0x43, some 0x16, some 0x15, some 0x14]
  hasRefresh := false
  frameBody := 5

/-- FREE VALUE: the byte of the `n`-th draw (R7, R95: one for `tx_reg` and one for each unspecified slot, at every
reset). It has no body, so nothing can be proved of it and every claim holds for every draw (R105). Log 7, 8. -/
opaque Config.freeByte (n : Nat) : Byte

/-- FREE VALUE: what the environment does at the `n`-th edge of a run once the given schedule has run out (R91, U13: the
schedule is free). Log 3. -/
opaque Config.freeEdge (n : Nat) : Edge

end Sys2Proof
end

