-- ==== Sys2Proof/WellFormed.lean ====
section
/-! DEFINITION. Which configurations are well formed (R5), and which instructions are the decoding of some word under a
configuration. -/

namespace Sys2Proof

/-- The conditions of R5; a refused configuration records the first that fails (R83: "the failed condition"). -/
inductive ConfigCond where
  /-- `1 <= BUF_CAP <= 256`. -/
  | bufCapRange
  /-- `0 <= VAL_COUNT <= BUF_CAP`. -/
  | valCountRange
  /-- Every slot `i < VAL_COUNT` of `INIT_BUF` is specified. -/
  | liveSlotsSpecified
  /-- `FRAME_BODY >= 1`. -/
  | frameBodyPositive
deriving DecidableEq, Repr

/-- The first condition of R5 that a configuration fails, if any. -/
def Config.failed (c : Config) : Option ConfigCond :=
  if ¬ (1 ≤ c.bufCap ∧ c.bufCap ≤ 256) then some .bufCapRange
  else if ¬ c.valCount ≤ c.bufCap then some .valCountRange
  else if ¬ ∀ i < c.valCount, (c.initSlot i).isSome then some .liveSlotsSpecified
  else if ¬ 1 ≤ c.frameBody then some .frameBodyPositive
  else none

/-- A well-formed configuration (R5). -/
def Config.wf (c : Config) : Bool := c.failed.isNone

/-- A refresh write whose index fits the port `buf_waddr`, `ADDR_W` bits wide (R29, R38). It may still be at or above
`BUF_CAP`, which the edge refuses (R70). -/
def Refresh.wf (c : Config) (r : Refresh) : Bool := decide (r.addr < 2 ^ c.addrW)

/-- No refresh write, or one that fits its port. -/
def wrWf (c : Config) (wr : Option Refresh) : Bool := wr.all (Refresh.wf c)

/-- An instruction that some CYC word of the configuration decodes to: its index fits `buf_waddr`, and the byte of an
ADVANCE is not `MAGIC` (R40). -/
def Instr.wf (c : Config) : Instr → Bool
  | .reset wr => wrWf c wr
  | .resync _ wr => wrWf c wr
  | .advanceEmit rx _ wr => decide (rx ≠ c.magic) && wrWf c wr
  | .advancePad rx _ wr => decide (rx ≠ c.magic) && wrWf c wr
  | .flagClr wr => wrWf c wr
  | .bufWr r => Refresh.wf c r
  | .idle => true

/-- Whether the state's case (`live`: `cursor < VAL_COUNT`) is one in which a word decodes to this instruction: EMIT
needs it, PAD needs its opposite (R41), and no other instruction looks at it. -/
def Instr.caseOk (live : Bool) : Instr → Bool
  | .advanceEmit _ _ _ => live
  | .advancePad _ _ _ => !live
  | .reset _ => true
  | .resync _ _ => true
  | .flagClr _ => true
  | .bufWr _ => true
  | .idle => true

end Sys2Proof
end

