-- ==== Sys2Proof/Decode.lean ====
section
/-! DEFINITION. Decoding a CYC word into an instruction (R40 to R45), and encoding one back; the ports (R38, R90). -/

namespace Sys2Proof

/-- Why a bit pattern is rejected. -/
inductive DecodeError where
  /-- A bit at or above `20 + ADDR_W` is set: no port of this configuration has it, so this is no CYC word (R42; log 6). -/
  | beyondWidth
deriving DecidableEq, Repr

/-- The width of a CYC word: `20 + ADDR_W` (R42). -/
def cycWidth (c : Config) : Nat := 20 + c.addrW

/-- Bit `k` of a number. -/
def bitAt (n k : Nat) : Bool := n / 2 ^ k % 2 == 1

/-- A one-bit field as a number. -/
def bitVal (b : Bool) : Nat := if b then 1 else 0

/-- The fields of a CYC word, at the bits R42 gives them. -/
def unpack (c : Config) (w : CycWord) : CycFields where
  rxByte   := BitVec.ofNat 8 w.toNat
  rxValid  := bitAt w.toNat 8
  flagClr  := bitAt w.toNat 9
  bufWe    := bitAt w.toNat 10
  rst      := bitAt w.toNat 11
  bufWaddr := w.toNat / 2 ^ 12 % 2 ^ c.addrW
  bufWdata := BitVec.ofNat 8 (w.toNat / 2 ^ (12 + c.addrW))

/-- The number that packs the fields at the bits R42 gives them. An index that does not fit `buf_waddr` is not checked
(log 17). -/
def packNat (c : Config) (f : CycFields) : Nat :=
  f.rxByte.toNat + 2 ^ 8 * bitVal f.rxValid + 2 ^ 9 * bitVal f.flagClr + 2 ^ 10 * bitVal f.bufWe
    + 2 ^ 11 * bitVal f.rst + 2 ^ 12 * (f.bufWaddr + 2 ^ c.addrW * f.bufWdata.toNat)

/-- The CYC word of some fields. -/
def pack (c : Config) (f : CycFields) : CycWord := BitVec.ofNat 28 (packNat c f)

/-- The magic-byte detector's class of a received byte: one full 8-bit equality test (R40, R52). -/
def rxClass (c : Config) (rx : Byte) : RxClass := if rx = c.magic then .resync else .advance

/-- The refresh write of an edge: `buf_waddr` and `buf_wdata` are ignored when `buf_we = 0` (R44). -/
def refreshOf (f : CycFields) : Option Refresh :=
  if f.bufWe then some ⟨f.bufWaddr, f.bufWdata⟩ else none

/-- The instruction of an edge, in the priority order of R86. `live` is the state's case `cursor < VAL_COUNT`, which
tells ADVANCE.EMIT from ADVANCE.PAD (R41). -/
def classify (c : Config) (live : Bool) (f : CycFields) : Instr :=
  if f.rst then .reset (refreshOf f)
  else if f.rxValid then
    match rxClass c f.rxByte, live with
    | .resync, _ => .resync f.flagClr (refreshOf f)
    | .advance, true => .advanceEmit f.rxByte f.flagClr (refreshOf f)
    | .advance, false => .advancePad f.rxByte f.flagClr (refreshOf f)
  else if f.flagClr then .flagClr (refreshOf f)
  else
    match refreshOf f with
    | some r => .bufWr r
    | none => .idle

/-- The decoder: total; every CYC word of the configuration is some instruction (R43, R45), and a bit pattern that is
none is rejected by name. -/
def decode (c : Config) (live : Bool) (w : CycWord) : Except DecodeError Instr :=
  if w.toNat < 2 ^ cycWidth c then .ok (classify c live (unpack c w)) else .error .beyondWidth

/-- The fields with the write port driven by a refresh write, or left at 0. -/
def CycFields.withRefresh (f : CycFields) : Option Refresh → CycFields
  | some r => { f with bufWe := true, bufWaddr := r.addr, bufWdata := r.data }
  | none => f

/-- The fields an instruction stands for (R42, R49); every field it does not name is 0. -/
def Instr.fields (c : Config) : Instr → CycFields
  | .reset wr => CycFields.withRefresh { rst := true } wr
  | .resync clr wr => CycFields.withRefresh { rxByte := c.magic, rxValid := true, flagClr := clr } wr
  | .advanceEmit rx clr wr => CycFields.withRefresh { rxByte := rx, rxValid := true, flagClr := clr } wr
  | .advancePad rx clr wr => CycFields.withRefresh { rxByte := rx, rxValid := true, flagClr := clr } wr
  | .flagClr wr => CycFields.withRefresh { flagClr := true } wr
  | .bufWr r => CycFields.withRefresh {} (some r)
  | .idle => {}

/-- The encoder: the CYC word of an instruction (R42). -/
def encode (c : Config) (i : Instr) : CycWord := pack c (i.fields c)

/-- The instruction the decoder reads from the low `nbits` bits `w`, in the reference configuration. A table row cannot
say the state's case, so ADVANCE is read in the case of the state after reset, `cursor < VAL_COUNT` (log 5). -/
def decodeTableWord (nbits w : Nat) : Option Instr :=
  match decode Config.reference true (BitVec.ofNat 28 (w % 2 ^ nbits)) with
  | .ok i => some i
  | .error .beyondWidth => none

/-- The width of a port (R38). -/
def Port.width (c : Config) : Port → Nat
  | .clk => 1
  | .rst => 1
  | .rxValid => 1
  | .rxByte => 8
  | .txByte => 8
  | .flag => 1
  | .flagClr => 1
  | .bufWe => 1
  | .bufWaddr => c.addrW
  | .bufWdata => 8

/-- The direction of a port (R38). -/
def Port.dir : Port → PortDir
  | .txByte => .output
  | .flag => .output
  | .clk => .input
  | .rst => .input
  | .rxValid => .input
  | .rxByte => .input
  | .flagClr => .input
  | .bufWe => .input
  | .bufWaddr => .input
  | .bufWdata => .input

/-- Whether a configuration has a port (R38). -/
def Port.present (c : Config) : Port → Bool
  | .bufWe => c.hasRefresh
  | .bufWaddr => c.hasRefresh
  | .bufWdata => c.hasRefresh
  | .clk => true
  | .rst => true
  | .rxValid => true
  | .rxByte => true
  | .txByte => true
  | .flag => true
  | .flagClr => true

/-- The input ports a CYC word samples, from its lowest bit up (R42). -/
def cycPorts : List Port := [.rxByte, .rxValid, .flagClr, .bufWe, .rst, .bufWaddr, .bufWdata]

/-- The ports an agent may drive (R90). -/
def Agent.drives : Agent → List Port
  | .serializer => [.rxValid, .rxByte]
  | .host => [.flagClr, .rst, .bufWe, .bufWaddr, .bufWdata]
  | .initiator => []

end Sys2Proof
end

