-- ==== Sys2Proof/Machine/State.lean ====
section
/-! DEFINITION. The machine's state (R9), its stops (R83), and the state after reset (R23, R95, R96). -/

namespace Sys2Proof.Machine

/-- Memory as data: the slots that differ from what an unlisted slot reads as, by rising index. -/
abbrev Memory := List Host.Cell

/-- The model's one fault (R83); the hardware reports nothing (R82). -/
inductive Fault where
  /-- `DeadlineMissed(k+1)`: raised by the step at an edge where the serializer loads `tx_byte` for exchange `k+1` though
  exchange `k`'s byte event has not come at an earlier edge (R98, R99). Records the exchange number. Safe: the run is
  not admitted as a good one (R83). -/
  | deadlineMissed (exchange : Nat)
deriving DecidableEq, Repr

/-- Why an edge has no meaning (R83). -/
inductive Refusal where
  /-- An instruction whose meaning is not written, raised by its arm of `exec`; no instruction of this model. Safe. -/
  | notModelled (mnemonic : String)
  /-- `ConfigRefused`: raised by every edge under a configuration that is not well formed (R5). Records the failed
  condition. Safe. -/
  | configRefused (cond : ConfigCond)
  /-- `PortAbsent`: raised by an edge with `buf_we = 1` while `HAS_REFRESH = false` (R45, R70). Records the edge's number.
  Safe. -/
  | portAbsent (edge : Nat)
  /-- `AddrOutOfRange`: raised by an edge with `buf_we = 1` and `buf_waddr >= BUF_CAP` (R45, R70). Records the edge's number
  and `buf_waddr`. Safe. -/
  | addrOutOfRange (edge waddr : Nat)
  /-- Raised by the fetch of a bit pattern that is no CYC word of the configuration (a bit beyond its width, R42; log 6).
  Records the edge's number. Safe. -/
  | notCycWord (edge : Nat)
deriving DecidableEq, Repr

/-- The machine. `buf`, `cursor`, `txReg` and `rxFlag` are the block's state, all of it (R9); `cfg` is its configuration
(R4, R6); the other fields are the model's own: the numbering of the draws, and the environment's schedule. -/
structure State where
  /-- The configuration: parameters, not state of the block (R9); no step changes it (R6). -/
  cfg     : Config
  /-- `buf` (R10): the slots whose contents differ from those the last reset gave them. -/
  buf     : Memory
  /-- `cursor` (R12): the index of the next byte to emit. -/
  cursor  : Nat
  /-- `tx_reg` (R14): the byte the serializer sends in the next exchange. -/
  txReg   : Byte
  /-- `rx_flag` (R16): a byte event occurred since the last effective clear. -/
  rxFlag  : Bool
  /-- The number of the draw that the last reset made for slot 0 (R95; log 8, 9). -/
  bufDraw : Nat
  /-- How many draws the resets so far have made (log 9). -/
  draws   : Nat
  /-- What the environment does at the next edges, the next edge first: the trace of R49 (log 2). -/
  inputs  : List Edge
  /-- How many edges the run has had (log 13). -/
  edges   : Nat
  /-- How many exchanges the serializer has begun, that is loaded `tx_byte` for (R47; log 10). -/
  loaded  : Nat
  /-- The exchange last begun has not had its own byte event, and the serializer has not given it up (R98; log 10). -/
  owed    : Bool
deriving DecidableEq, Repr

/-- `reset_state(d)` for a configuration (R23, R95, R96): the state in which every run starts. The buffer holds its reset
contents, so nothing is listed; `tx_reg` is the draw numbered `BUF_CAP`, after one for each slot. -/
def State.resetFor (c : Config) : State where
  cfg     := c
  buf     := []
  cursor  := 0
  txReg   := Config.freeByte c.bufCap
  rxFlag  := false
  bufDraw := 0
  draws   := c.bufCap + 1
  inputs  := []
  edges   := 0
  loaded  := 0
  owed    := false

/-- The machine right after reset, in the reference configuration (R4, R23). -/
def State.reset : State := State.resetFor Config.reference

end Sys2Proof.Machine
end

