-- ==== Sys2Proof/Machine/Ops.lean ====
section
/-! DEFINITION. The named operations over the buffer, the registers and the environment's schedule. The block takes no
exception and returns from none (R82, R88, R89), so there is no operation for either. -/

namespace Sys2Proof.Machine

/-- The byte an unlisted slot reads as: its contents after the last reset (R23, R95), which `INIT_BUF` specifies or a
draw of that reset gave. -/
def unlisted (c : Config) (base i : Nat) : Byte := (c.initSlot i).getD (Config.freeByte (base + i))

/-- The listed contents of a slot. -/
def Memory.find : Memory → Nat → Option Byte
  | [], _ => none
  | (b, v) :: m, a => if b = a then some v else Memory.find m a

/-- The memory with slot `a` listed as `v`. -/
def Memory.put : Memory → Nat → Byte → Memory
  | [], a, v => [(a, v)]
  | (b, w) :: m, a, v =>
    if a < b then (a, v) :: (b, w) :: m
    else if a = b then (a, v) :: m
    else (b, w) :: Memory.put m a v

/-- The memory with slot `a` unlisted. -/
def Memory.drop : Memory → Nat → Memory
  | [], _ => []
  | (b, w) :: m, a => if b = a then Memory.drop m a else (b, w) :: Memory.drop m a

/-- The canonical form: slots of the address space (R24), strictly rising, none listed with its unlisted contents. -/
abbrev Memory.wf (c : Config) (base : Nat) (m : Memory) : Prop :=
  m.Pairwise (fun x y => x.1 < y.1) ∧ ∀ x ∈ m, x.1 < c.bufCap ∧ x.2 ≠ unlisted c base x.1

/-- The memory after a write of one byte, in canonical form. -/
def Memory.write (c : Config) (base : Nat) (m : Memory) (a : Nat) (v : Byte) : Memory :=
  if v = unlisted c base a then Memory.drop m a else Memory.put m a v

/-- `MemRead(i, 1)`, the contents of slot `i` before the edge (R30). The byte event reads only slots below `VAL_COUNT`,
which a well-formed configuration has (R29). -/
def readSlot (s : State) (i : Nat) : Byte :=
  (Memory.find s.buf i).getD (unlisted s.cfg s.bufDraw i)

/-- `MemWrite(i, 1, v)` (R31); `guardEdge` has refused an index outside the buffer. -/
def writeSlot (s : State) (i : Nat) (v : Byte) : State :=
  { s with buf := Memory.write s.cfg s.bufDraw s.buf i v }

/-- The refresh write of an edge, if it has one (R31, R43). -/
def applyWr (s : State) : Option Refresh → State
  | some r => writeSlot s r.addr r.data
  | none => s

/-- The registers a byte event writes (R53, R55, R56). -/
def latch (s : State) (tx : Byte) (cur : Nat) (flag : Bool) : State :=
  { s with txReg := tx, cursor := cur, rxFlag := flag }

/-- `rx_flag <- v`. -/
def setFlag (s : State) (v : Bool) : State := { s with rxFlag := v }

/-- `reset_state` (R95): every slot back to `INIT_BUF` or a new draw, `cursor` and `rx_flag` to 0, `tx_reg` to a new draw.
The serializer's side is not affected (R103). -/
def resetState (s : State) : State :=
  { s with
    buf := []
    cursor := 0
    txReg := Config.freeByte (s.draws + s.cfg.bufCap)
    rxFlag := false
    bufDraw := s.draws
    draws := s.draws + s.cfg.bufCap + 1 }

/-- The output port `tx_byte`, combinational (R14). -/
def txByte (s : State) : Byte := s.txReg

/-- The output port `flag`, combinational: the host's flag read (R16, R68). -/
def flagOut (s : State) : Bool := s.rxFlag

/-- What the environment does at the next edge: the head of the schedule, or, past its end, a free edge (log 2, 3). -/
def edgeIn (s : State) : Edge :=
  match s.inputs with
  | e :: _ => e
  | [] => Config.freeEdge s.edges

/-- The state's case `cursor < VAL_COUNT`, by which an ADVANCE is EMIT or PAD (R41). -/
def live (s : State) : Bool := decide (s.cursor < s.cfg.valCount)

/-- The instruction of the next edge, or why there is none: a configuration that is not well formed runs nothing (R5),
and a bit pattern that is no CYC word is no input (log 6). -/
def fetch (s : State) : Except Refusal Instr :=
  match s.cfg.failed with
  | some cond => .error (.configRefused cond)
  | none =>
    match decode s.cfg (live s) (edgeIn s).cyc with
    | .ok i => .ok i
    | .error .beyondWidth => .error (.notCycWord s.edges)

/-- Whether edge `e` samples the byte event of an exchange, not an extra one (R46, R93; log 19). -/
def ownEvent (c : Config) (e : Edge) : Bool := (unpack c e.cyc).rxValid && !e.extra

/-- Whether the serializer's load at edge `e` breaks the deadline (R98, R99): it begins exchange `k+1` though exchange
`k`'s own byte event has not come at an earlier edge and has not been given up. -/
def late (s : State) (e : Edge) : Bool := e.load && s.owed && !e.dropped

/-- The environment's side of an edge: the schedule moves on, the edge and the loads are counted, and an exchange is owed
its own byte event from its load until that event is sampled, at the load's edge at the earliest, or given up (R46, R47,
R98; log 10, 18, 19). -/
def advance (s : State) (e : Edge) : State :=
  { s with
    inputs := s.inputs.tail
    edges := s.edges + 1
    loaded := s.loaded + bitVal e.load
    owed := (e.load || (s.owed && !e.dropped)) && !ownEvent s.cfg e }

/-- The end of an edge of `s` whose instruction answered `o`: a stop stands (refusals come first, R86), a load past the
deadline faults (R99), and otherwise the environment moves on. -/
def finishEdge (s : State) (o : Host.Outcome State Fault Refusal) : Host.Outcome State Fault Refusal :=
  match o with
  | .next t => if late s (edgeIn s) then .fault (.deadlineMissed (s.loaded + 1)) else .next (advance t (edgeIn s))
  | .fault r => .fault r
  | .refused r => .refused r

end Sys2Proof.Machine
end

