-- ==== Sys2Proof/Machine/Operands.lean ====
section
/-! DEFINITION. The operand forms (R50): the cursor a byte event works from, and the refresh write's checks. -/

namespace Sys2Proof.Machine

/-- `c0`, the cursor value a byte event works from (R52): 0 on the magic byte, else the cursor. -/
def cursorFrom (s : State) : RxClass → Nat
  | .resync => 0
  | .advance => s.cursor

/-- The refusals of an edge, checked before anything else (R5, R45, R70, R86 item 1); an edge that passes them ends in
`t`. -/
def guardEdge (s : State) (wr : Option Refresh) (t : State) : Host.Outcome State Fault Refusal :=
  match s.cfg.failed with
  | some cond => .refused (.configRefused cond)
  | none =>
    match wr with
    | none => .next t
    | some r =>
      if s.cfg.hasRefresh = false then .refused (.portAbsent s.edges)
      else if s.cfg.bufCap ≤ r.addr then .refused (.addrOutOfRange s.edges r.addr)
      else .next t

end Sys2Proof.Machine
end

