-- ==== Sys2Proof/Machine/Flags.lean ====
section
/-! DEFINITION. The one status flag, `rx_flag` (R20): its next value at an edge. -/

namespace Sys2Proof.Machine

/-- The next `rx_flag` of an edge without reset: a byte event sets it, and beats a clear at the same edge (R56, R67,
R86). -/
def flagNext (rxValid clr old : Bool) : Bool := if rxValid then true else if clr then false else old

end Sys2Proof.Machine
end

