-- ==== Sys2Proof/Machine/ByteEvent.lean ====
section
/-! DEFINITION. The byte event (40_byte_event.md): magic-byte detector, index FSM and byte multiplexer. -/

namespace Sys2Proof.Machine

/-- The byte multiplexer and the index FSM from `c0` (R53, R55), with the flag set (R56). All reads are of the state
before the edge. -/
def byteEvent (s : State) (k : RxClass) (clr : Bool) : State :=
  if cursorFrom s k < s.cfg.valCount then
    latch s (readSlot s (cursorFrom s k)) (cursorFrom s k + 1) (flagNext true clr s.rxFlag)
  else
    latch s s.cfg.pad (cursorFrom s k) (flagNext true clr s.rxFlag)

/-- RESYNC (R57). -/
def execResync (clr : Bool) (wr : Option Refresh) (s : State) : Host.Outcome State Fault Refusal :=
  guardEdge s wr (applyWr (byteEvent s .resync clr) wr)

/-- ADVANCE.EMIT (R58). The received byte has no further effect (R61), and the case is the state's (R41; log 5). -/
def execAdvanceEmit (_rx : Byte) (clr : Bool) (wr : Option Refresh) (s : State) : Host.Outcome State Fault Refusal :=
  guardEdge s wr (applyWr (byteEvent s .advance clr) wr)

/-- ADVANCE.PAD (R59). The received byte has no further effect (R61), and the case is the state's (R41; log 5). -/
def execAdvancePad (_rx : Byte) (clr : Bool) (wr : Option Refresh) (s : State) : Host.Outcome State Fault Refusal :=
  guardEdge s wr (applyWr (byteEvent s .advance clr) wr)

end Sys2Proof.Machine
end

