-- ==== Sys2Proof/Machine/HostOps.lean ====
section
/-! DEFINITION. The host's operations (41_host_ops.md) and the idle edge. -/

namespace Sys2Proof.Machine

/-- FLAG_CLR at an edge with no byte event (R67); a refresh write may share the edge (R86 item 5). -/
def execFlagClr (wr : Option Refresh) (s : State) : Host.Outcome State Fault Refusal :=
  guardEdge s wr (applyWr (setFlag s (flagNext false true s.rxFlag)) wr)

/-- BUF_WR (R69), with the refusals of R70. -/
def execBufWr (r : Refresh) (s : State) : Host.Outcome State Fault Refusal :=
  guardEdge s (some r) (applyWr s (some r))

/-- IDLE (R71): the block's state holds. -/
def execIdle (s : State) : Host.Outcome State Fault Refusal :=
  guardEdge s none s

end Sys2Proof.Machine
end

