-- ==== Sys2Proof/Machine/Reset.lean ====
section
/-! DEFINITION. RESET (70_reset_and_hazards.md). -/

namespace Sys2Proof.Machine

/-- RESET (R95): beats every other event of its edge but a refusal, so a refresh write at the edge is checked and then
dropped (R86). -/
def execReset (wr : Option Refresh) (s : State) : Host.Outcome State Fault Refusal :=
  guardEdge s wr (resetState s)

end Sys2Proof.Machine
end

