-- ==== Sys2Proof/Machine/Dispatch.lean ====
section
/-! DEFINITION. The meaning of every instruction, one arm per constructor (R43). -/

namespace Sys2Proof.Machine

def exec (i : Instr) (s : State) : Host.Outcome State Fault Refusal :=
  match i with
  | .reset wr => Sys2Proof.Machine.execReset wr s
  | .resync clr wr => Sys2Proof.Machine.execResync clr wr s
  | .advanceEmit rx clr wr => Sys2Proof.Machine.execAdvanceEmit rx clr wr s
  | .advancePad rx clr wr => Sys2Proof.Machine.execAdvancePad rx clr wr s
  | .flagClr wr => Sys2Proof.Machine.execFlagClr wr s
  | .bufWr wr => Sys2Proof.Machine.execBufWr wr s
  | .idle => Sys2Proof.Machine.execIdle s

end Sys2Proof.Machine
end

