-- ==== Sys2Proof/Machine/Step.lean ====
section
/-! DEFINITION. One step: one rising edge of `clk` (R3, R34, R43). -/

namespace Sys2Proof.Machine

/-- One edge: the instruction of the sampled CYC word runs, then the environment's side of the edge. -/
def step (s : State) : Host.Outcome State Fault Refusal :=
  match fetch s with
  | .error r => .refused r
  | .ok i => finishEdge s (exec i s)

/-- The state with a CYC word as the input of its very next edge, with no load of the serializer at that edge; whatever
the schedule held follows it (log 2). -/
def State.withFetchWord (s : State) (nbits w : Nat) : State :=
  { s with inputs := { cyc := BitVec.ofNat 28 (w % 2 ^ nbits) } :: s.inputs }

end Sys2Proof.Machine
end

