-- ==== Sys2Proof/Machine/Trace.lean ====
section
/-! DEFINITION. Traces (R49), the transaction view (R48) and the initiator's frame (42_frame.md). -/

namespace Sys2Proof.Machine

/-- An event of a trace line (R49); also an action of the transaction view (R48). -/
inductive TraceEvent where
  /-- `EXCH rx`: a completed exchange in which the initiator sent `rx`. -/
  | exch (rx : Byte)
  /-- `CLR`: the host clears the flag. -/
  | clr
  /-- `WR i, v`: a host refresh write. -/
  | wr (i : Nat) (v : Byte)
  /-- `RST`: reset. -/
  | rst
deriving DecidableEq, Repr

/-- The fields of a trace line with one more event joined to it by `|` (R49). -/
def TraceEvent.join : TraceEvent → CycFields → CycFields
  | .exch rx, f => { f with rxValid := true, rxByte := rx }
  | .clr, f => { f with flagClr := true }
  | .wr i v, f => { f with bufWe := true, bufWaddr := i, bufWdata := v }
  | .rst, f => { f with rst := true }

/-- The fields of a trace line: the events of one edge; no event is `IDLE` (R49). DESIGN CHOICE (log 20): R49 gives no CYC
word for a line that names one kind of event twice; the one further left stands, and the other is lost. -/
def lineFields : List TraceEvent → CycFields
  | [] => {}
  | ev :: evs => ev.join (lineFields evs)

/-- Whether an event is a completed exchange. -/
def TraceEvent.isExch : TraceEvent → Bool
  | .exch _ => true
  | .clr => false
  | .wr _ _ => false
  | .rst => false

/-- The edge of a trace line (R49). An exchange's load falls on the line of its event, where the byte is the `tx_reg` from
before the edge (R48, R98; log 18). DESIGN CHOICE (log 17): a line `WR i, v` whose `i` does not fit `buf_waddr` has no CYC
word in the spec; `pack` does not check it, so its high bits are added to `buf_wdata`. -/
def lineEdge (c : Config) (evs : List TraceEvent) : Edge :=
  { cyc := pack c (lineFields evs), load := evs.any TraceEvent.isExch }

/-- `IDLE n`: `n` edges without an event (R49). -/
def idleLines (n : Nat) : List (List TraceEvent) := List.replicate n []

/-- `SYNC` (R49). -/
def syncLine (c : Config) : List TraceEvent := [.exch c.magic]

/-- The bytes of `FRAME [b1, ..., bn]`: `MAGIC`, then the given bytes (R49). -/
def frameOf (c : Config) (bs : List Byte) : List Byte := c.magic :: bs

/-- The bytes the initiator sends in a frame: `MAGIC`, then `FRAME_BODY` zeros (R74, R49 `FRAME`). -/
def initiatorSends (c : Config) : List Byte := frameOf c (List.replicate c.frameBody 0)

/-- The lines of `FRAME`, one exchange a line, with nothing between (R49). -/
def frameLines (c : Config) : List (List TraceEvent) := (initiatorSends c).map (fun b => [.exch b])

/-- What the initiator keeps of the bytes it received in a frame: the first is discarded (R76). -/
def captured (miso : List Byte) : List Byte := miso.drop 1

/-- One action of the transaction view (R48), on a state and operands that no refusal concerns. -/
def TraceEvent.apply (s : State) : TraceEvent → State
  | .exch rx => byteEvent s (rxClass s.cfg rx) false
  | .clr => setFlag s false
  | .wr i v => writeSlot s i v
  | .rst => resetState s

/-- Several actions, one after the other (R48). -/
def runEvents (s : State) : List TraceEvent → State
  | [] => s
  | ev :: evs => runEvents (ev.apply s) evs

/-- The actions that one edge without reset equals: CLR, then EXCH, then WR (R48). -/
def edgeActions (f : CycFields) : List TraceEvent :=
  (if f.flagClr then [.clr] else []) ++ (if f.rxValid then [.exch f.rxByte] else [])
    ++ (if f.bufWe then [.wr f.bufWaddr f.bufWdata] else [])

/-- The actions that a trace line equals: those of its edge, or RST where the line has it (R48, R86). -/
def lineActions (evs : List TraceEvent) : List TraceEvent :=
  if .rst ∈ evs then [.rst] else edgeActions (lineFields evs)

/-- The bytes the initiator receives in a sequence of exchanges, each the `tx_reg` from before its own byte event (R15,
R48 `miso = s.tx_reg`). -/
def misoOf (s : State) : List Byte → List Byte
  | [] => []
  | rx :: rest => txByte s :: misoOf (TraceEvent.apply s (.exch rx)) rest

/-- The state after a sequence of exchanges (R48). -/
def afterExchanges (s : State) : List Byte → State
  | [] => s
  | rx :: rest => afterExchanges (TraceEvent.apply s (.exch rx)) rest

end Sys2Proof.Machine
end

