-- ==== Sys2Proof/Safety.lean ====
section
/-! DEFINITION. What claims are stated in: the invariant, reachable states, the edge function as the spec writes it, the
observation of a run, and edges that carry exchanges. -/

namespace Sys2Proof.Machine

/-- The invariant: a well-formed configuration (R5), the cursor within `0 .. VAL_COUNT` (R17), the buffer in its canonical
form. -/
abbrev StateInv (s : State) : Prop :=
  s.cfg.wf = true ∧ s.cursor ≤ s.cfg.valCount ∧ Memory.wf s.cfg s.bufDraw s.buf

/-- The states reachable from reset under a configuration, for every schedule of the environment (R17, R96). -/
inductive Reachable (c : Config) : State → Prop where
  | start (inputs : List Edge) : Reachable c { State.resetFor c with inputs := inputs }
  | step (s t : State) : Reachable c s → Machine.step s = .next t → Reachable c t

/-- Nothing refuses an edge of `s` with this refresh write (R5, R70). -/
abbrev Accepts (s : State) (wr : Option Refresh) : Prop :=
  s.cfg.wf = true ∧ ∀ r ∈ wr, s.cfg.hasRefresh = true ∧ r.addr < s.cfg.bufCap

/-- Everything outside the block's four components (R9) is the same: the configuration, the numbering of the draws, the
environment. -/
abbrev SameOutside (s t : State) : Prop :=
  t.cfg = s.cfg ∧ t.bufDraw = s.bufDraw ∧ t.draws = s.draws ∧ t.inputs = s.inputs ∧ t.edges = s.edges
    ∧ t.loaded = s.loaded ∧ t.owed = s.owed

/-- What slot `a` holds after an edge of `s` with this refresh write and no reset (R31). -/
def slotAfter (s : State) (wr : Option Refresh) (a : Nat) : Byte :=
  match wr with
  | some r => if a = r.addr then r.data else readSlot s a
  | none => readSlot s a

/-- The fields of the CYC word of the next edge. -/
def fieldsIn (s : State) : CycFields := unpack s.cfg (edgeIn s).cyc

/-- The edge function of R43, line by line as the spec writes it, for a well-formed configuration; its refusals record
the edge. -/
def edgeSpec (s : State) (f : CycFields) : Host.Outcome State Fault Refusal :=
  if f.bufWe = true ∧ s.cfg.hasRefresh = false then .refused (.portAbsent s.edges)
  else if f.bufWe = true ∧ s.cfg.bufCap ≤ f.bufWaddr then .refused (.addrOutOfRange s.edges f.bufWaddr)
  else if f.rst = true then .next (resetState s)
  else
    let c0 := if f.rxByte = s.cfg.magic then 0 else s.cursor
    let s1 : State :=
      if f.rxValid = true then
        { s with
          txReg := if c0 < s.cfg.valCount then readSlot s c0 else s.cfg.pad
          cursor := if c0 < s.cfg.valCount then c0 + 1 else c0
          rxFlag := true }
      else if f.flagClr = true then { s with rxFlag := false }
      else s
    .next (if f.bufWe = true then writeSlot s1 f.bufWaddr f.bufWdata else s1)

/-- The stream's `j`-th byte, read from the buffer of `s`: a live slot's, then `PAD` (R65, R77). -/
def streamByte (s : State) (j : Nat) : Byte := if j < s.cfg.valCount then readSlot s j else s.cfg.pad

/-- How a run stopped, if it did. -/
inductive Stop where
  | fault (r : Fault)
  | refused (r : Refusal)
deriving DecidableEq, Repr

/-- The observation of a run (R105): the bytes the serializer loads, `flag` after each edge, and whether it stopped. -/
structure Observation where
  sent  : List Byte
  flags : List Bool
  stop  : Option Stop
deriving DecidableEq, Repr

/-- The observation of the next `n` edges. A load samples `tx_byte` before the edge (R47); a stopped edge sends nothing
(R99). -/
def observe : Nat → State → Observation
  | 0, _ => { sent := [], flags := [], stop := none }
  | n + 1, s =>
    match step s with
    | .next t =>
      { sent := (if (edgeIn s).load then [txByte s] else []) ++ (observe n t).sent
        flags := flagOut t :: (observe n t).flags
        stop := (observe n t).stop }
    | .fault r => { sent := [], flags := [], stop := some (.fault r) }
    | .refused r => { sent := [], flags := [], stop := some (.refused r) }

/-- An edge that disturbs no exchange: a CYC word of the configuration, no reset, no byte event given up, and no refresh
write to a live slot, though an accepted one to an unused slot (R77, R25). -/
abbrev Calm (c : Config) (e : Edge) : Prop :=
  e.cyc.toNat < 2 ^ cycWidth c ∧ (unpack c e.cyc).rst = false ∧ e.dropped = false ∧
    ((unpack c e.cyc).bufWe = true →
      c.hasRefresh = true ∧ c.valCount ≤ (unpack c e.cyc).bufWaddr ∧ (unpack c e.cyc).bufWaddr < c.bufCap)

/-- A calm edge with neither a byte event nor a load: IDLE, FLAG_CLR or a harmless BUF_WR (R74). -/
abbrev Quiet (c : Config) (e : Edge) : Prop :=
  Calm c e ∧ (unpack c e.cyc).rxValid = false ∧ e.load = false

/-- The edges of one exchange (R46, R47): quiet edges, the load where it comes before the event's edge, quiet edges, and
the edge of its byte event. -/
structure ExchangeEdges where
  before : List Edge := []
  start  : Option Edge := none
  during : List Edge := []
  valid  : Edge

/-- The edges of an exchange in the order of time. -/
def ExchangeEdges.edges (x : ExchangeEdges) : List Edge := x.before ++ (x.start.toList ++ (x.during ++ [x.valid]))

/-- All the edges of some exchanges, in the order of time. -/
def allEdges (xs : List ExchangeEdges) : List Edge := xs.flatMap ExchangeEdges.edges

/-- These edges carry one exchange in which the initiator sends `rx`, within the deadline (R46, R47, R98): the load comes
strictly after the byte event of the exchange before, and at the edge of its own event at the latest (log 18). -/
abbrev Carries (c : Config) (rx : Byte) (x : ExchangeEdges) : Prop :=
  (∀ e ∈ x.before, Quiet c e) ∧
  (∀ e ∈ x.start, Calm c e ∧ (unpack c e.cyc).rxValid = false ∧ e.load = true) ∧
  (∀ e ∈ x.during, Quiet c e) ∧
  (Calm c x.valid ∧ ownEvent c x.valid = true ∧ (unpack c x.valid.cyc).rxByte = rx ∧ x.valid.load = x.start.isNone)

/-- Two states that differ at most in the contents of the unused slots, those at and above `VAL_COUNT` (R25). -/
abbrev LiveEq (s s' : State) : Prop :=
  s'.cfg = s.cfg ∧ s'.cursor = s.cursor ∧ s'.txReg = s.txReg ∧ s'.rxFlag = s.rxFlag ∧ s'.draws = s.draws ∧
  s'.inputs = s.inputs ∧ s'.edges = s.edges ∧ s'.loaded = s.loaded ∧ s'.owed = s.owed ∧
  ∀ i < s.cfg.valCount, readSlot s' i = readSlot s i

/-- Two edges that differ at most in `flag_clr`, for a host that polls and one that does not (R73). -/
abbrev SameButClr (c : Config) (e e' : Edge) : Prop :=
  (e.cyc.toNat < 2 ^ cycWidth c ↔ e'.cyc.toNat < 2 ^ cycWidth c) ∧ e'.load = e.load ∧ e'.dropped = e.dropped ∧
  e'.extra = e.extra ∧
  { unpack c e'.cyc with flagClr := false } = { unpack c e.cyc with flagClr := false }

end Sys2Proof.Machine
end

