-- ==== Sys2Proof/Certificates/Slice0/Obligations.lean ====
section
/-! DEFINITION. The statements for the provers. Each docstring names the rule of spec/ it formalises. -/

open Sys2Proof Sys2Proof.Machine

-- Decoding and the step

/-- R43: when the word at the input ports decodes to `i`, the step is `exec i`, then the environment's side of the edge;
a placed word is the input of the very next edge (log 2, 10). -/
def Obligations.StepRunsDecodedInstruction : Prop :=
  (∀ (s : State) (i : Instr), s.cfg.wf = true → decode s.cfg (live s) (edgeIn s).cyc = .ok i →
    step s = finishEdge s (exec i s) ∧
    (∀ t, exec i s = .next t → late s (edgeIn s) = false → step s = .next (advance t (edgeIn s))) ∧
    (∀ r, exec i s = .refused r → step s = .refused r)) ∧
  ∀ (s : State) (nbits w : Nat),
    edgeIn (s.withFetchWord nbits w) =
      { cyc := BitVec.ofNat 28 (w % 2 ^ nbits), load := false, dropped := false, extra := false }

/-- R42, R57 to R71, R95: words written out from the spec's encodings decode to the events they stand for. -/
def Obligations.SampleWordsDecode : Prop :=
  decode Config.reference true 0x0000800#28 = .ok (.reset none) ∧
  decode Config.reference true 0x00001F0#28 = .ok (.resync false none) ∧
  decode Config.reference true 0x0000100#28 = .ok (.advanceEmit 0x00 false none) ∧
  decode Config.reference false 0x00001F1#28 = .ok (.advancePad 0xF1 false none) ∧
  decode Config.reference true 0x0000200#28 = .ok (.flagClr none) ∧
  decode Config.reference true 0x0AB2400#28 = .ok (.bufWr ⟨2, 0xAB⟩) ∧
  decode Config.reference true 0x00000F0#28 = .ok .idle ∧
  decode Config.reference true 0x0000300#28 = .ok (.advanceEmit 0x00 true none) ∧
  decode Config.reference true 0x00009F0#28 = .ok (.reset none) ∧
  decode Config.reference true 0x0AB2500#28 = .ok (.advanceEmit 0x00 false (some ⟨2, 0xAB⟩))

/-- R42, R43: decoding an encoded well-formed instruction gives it back, under every well-formed configuration and with
every operand. -/
def Obligations.DecodeOfEncode : Prop :=
  ∀ (c : Config) (i : Instr) (b : Bool), c.wf = true → i.wf c = true → i.caseOk b = true →
    decode c b (encode c i) = .ok i

/-- R45: every CYC word is some well-formed instruction, in the case the state is in; a bit pattern that is no CYC word
is rejected by name (log 6). -/
def Obligations.EveryCycWordDecodes : Prop :=
  ∀ (c : Config) (b : Bool) (w : CycWord), c.wf = true →
    (w.toNat < 2 ^ cycWidth c → ∃ i, decode c b w = .ok i ∧ i.wf c = true ∧ i.caseOk b = true) ∧
    (2 ^ cycWidth c ≤ w.toNat → decode c b w = .error .beyondWidth)

/-- R40: every byte value is in exactly one class, by equality with `MAGIC`; for the reference, with 0xF0. -/
def Obligations.RxBytesSplitIntoTwoClasses : Prop :=
  (∀ (c : Config) (rx : Byte), (rxClass c rx = .resync ↔ rx = c.magic) ∧ (rxClass c rx = .advance ↔ rx ≠ c.magic)) ∧
  ∀ rx : Byte, rxClass Config.reference rx = .resync ↔ rx = 0xF0

/-- R44: `rx_byte` is ignored when `rx_valid = 0`, and `buf_waddr` and `buf_wdata` are when `buf_we = 0`. -/
def Obligations.IgnoredInputsChangeNothing : Prop :=
  ∀ (s : State) (e e' : Edge) (es : List Edge),
    e.cyc.toNat < 2 ^ cycWidth s.cfg → e'.cyc.toNat < 2 ^ cycWidth s.cfg → e'.load = e.load → e'.dropped = e.dropped →
    e'.extra = e.extra →
    (((unpack s.cfg e.cyc).rxValid = false ∧
        ∃ b, unpack s.cfg e'.cyc = { unpack s.cfg e.cyc with rxByte := b }) ∨
      ((unpack s.cfg e.cyc).bufWe = false ∧
        ∃ a d, unpack s.cfg e'.cyc = { unpack s.cfg e.cyc with bufWaddr := a, bufWdata := d })) →
    step { s with inputs := e' :: es } = step { s with inputs := e :: es }

/-- R43: `exec` on the instruction of any fields is the edge function as the spec writes it, and the step is that followed
by `finishEdge`. The schedule, the late-load check and the edge that a refusal records are the model's choice (log 2, 10,
13), which R43 does not state. -/
def Obligations.EdgeFunctionRefinement : Prop :=
  (∀ s : State, s.cfg.wf = true → (edgeIn s).cyc.toNat < 2 ^ cycWidth s.cfg →
    step s = finishEdge s (edgeSpec s (fieldsIn s))) ∧
  ∀ (s : State) (f : CycFields), s.cfg.wf = true → exec (classify s.cfg (live s) f) s = edgeSpec s f

/-- R42: the CYC word is as wide as the ports it samples together; 24 bits in the reference configuration. -/
def Obligations.CycWidthIsSumOfPorts : Prop :=
  (∀ c : Config, (cycPorts.map (Port.width c)).sum = cycWidth c) ∧ cycWidth Config.reference = 24

/-- R90, R38: every sampled input port is driven by exactly one agent, no agent drives an output or the clock, and the
write port is there exactly when `HAS_REFRESH` holds. -/
def Obligations.EachInputPortHasOneDriver : Prop :=
  (∀ p : Port, p ∈ cycPorts ↔ p.dir = .input ∧ p ≠ .clk) ∧
  (∀ p : Port, p ∈ cycPorts ↔
    (p ∈ Agent.serializer.drives ∧ p ∉ Agent.host.drives) ∨ (p ∉ Agent.serializer.drives ∧ p ∈ Agent.host.drives)) ∧
  Agent.initiator.drives = [] ∧
  ∀ (c : Config) (p : Port),
    Port.present c p = false ↔ c.hasRefresh = false ∧ (p = .bufWe ∨ p = .bufWaddr ∨ p = .bufWdata)

-- Configuration and refusals

/-- R5, R83: a configuration is well formed exactly under the four conditions; another one runs nothing; `VAL_COUNT = 0`
emits only `PAD`. That every step and every `exec` refuses, and that the first failing condition is the one recorded, is
the model's reading (log 11). -/
def Obligations.IllFormedConfigurationRefused : Prop :=
  (∀ c : Config, c.wf = true ↔
    (1 ≤ c.bufCap ∧ c.bufCap ≤ 256) ∧ c.valCount ≤ c.bufCap ∧ (∀ i < c.valCount, (c.initSlot i).isSome = true) ∧
      1 ≤ c.frameBody) ∧
  (∀ s : State, s.cfg.wf = false → ∃ cond, s.cfg.failed = some cond ∧ step s = .refused (.configRefused cond) ∧
    ∀ i, exec i s = .refused (.configRefused cond)) ∧
  ∀ (s : State) (rx : Byte), s.cfg.valCount = 0 → (TraceEvent.apply s (.exch rx)).txReg = s.cfg.pad

/-- R6: no step changes the configuration. -/
def Obligations.ConfigurationNeverChanges : Prop :=
  ∀ s t : State, step s = .next t → t.cfg = s.cfg

/-- R70: an edge with `buf_we = 1` is refused as a whole without the port, and with an index at or above `BUF_CAP`,
whatever else is on it. The number that the refusal records as the edge (R83) is the model's count (log 13). -/
def Obligations.RefreshWriteRefusals : Prop :=
  ∀ (s : State) (f : CycFields), s.cfg.wf = true → f.bufWe = true →
    (s.cfg.hasRefresh = false → exec (classify s.cfg (live s) f) s = .refused (.portAbsent s.edges)) ∧
    (s.cfg.hasRefresh = true → s.cfg.bufCap ≤ f.bufWaddr →
      exec (classify s.cfg (live s) f) s = .refused (.addrOutOfRange s.edges f.bufWaddr))

/-- R45, R105: every other CYC word is legal: the block always has a step, unless the edge is refused or the load is
late. -/
def Obligations.EveryLegalEdgeCompletes : Prop :=
  ∀ s : State, (edgeIn s).cyc.toNat < 2 ^ cycWidth s.cfg → Accepts s (refreshOf (fieldsIn s)) →
    late s (edgeIn s) = false → ∃ t, step s = .next t

/-- R83 and log 6, 11, 13: a step is refused only for a stated reason, each under its condition. -/
def Obligations.RefusalsHaveTheirReasons : Prop :=
  ∀ (s : State) (r : Refusal), step s = .refused r →
    (∃ cond, s.cfg.failed = some cond ∧ r = .configRefused cond) ∨
    ((fieldsIn s).bufWe = true ∧ s.cfg.hasRefresh = false ∧ r = .portAbsent s.edges) ∨
    ((fieldsIn s).bufWe = true ∧ s.cfg.hasRefresh = true ∧ s.cfg.bufCap ≤ (fieldsIn s).bufWaddr ∧
      r = .addrOutOfRange s.edges (fieldsIn s).bufWaddr) ∨
    (2 ^ cycWidth s.cfg ≤ (edgeIn s).cyc.toNat ∧ r = .notCycWord s.edges)

-- The instructions: result, frame and completion

/-- R57: RESYNC. -/
def Obligations.ResyncResult : Prop :=
  (∀ (c : Config) (b : Bool) (f : CycFields), f.rst = false → f.rxValid = true → f.rxByte = c.magic →
    classify c b f = .resync f.flagClr (refreshOf f)) ∧
  ∀ (s : State) (clr : Bool) (wr : Option Refresh), Accepts s wr →
    ∃ t, exec (.resync clr wr) s = .next t ∧
      (0 < s.cfg.valCount → t.txReg = readSlot s 0 ∧ t.cursor = 1) ∧
      (s.cfg.valCount = 0 → t.txReg = s.cfg.pad ∧ t.cursor = 0) ∧
      t.rxFlag = true ∧ SameOutside s t ∧ ∀ a, readSlot t a = slotAfter s wr a

/-- R58: ADVANCE.EMIT. -/
def Obligations.AdvanceEmitResult : Prop :=
  (∀ (s : State) (f : CycFields), f.rst = false → f.rxValid = true → f.rxByte ≠ s.cfg.magic →
    s.cursor < s.cfg.valCount →
    classify s.cfg (live s) f = .advanceEmit f.rxByte f.flagClr (refreshOf f)) ∧
  ∀ (s : State) (rx : Byte) (clr : Bool) (wr : Option Refresh), Accepts s wr → s.cursor < s.cfg.valCount →
    ∃ t, exec (.advanceEmit rx clr wr) s = .next t ∧
      t.txReg = readSlot s s.cursor ∧ t.cursor = s.cursor + 1 ∧ t.rxFlag = true ∧
      SameOutside s t ∧ ∀ a, readSlot t a = slotAfter s wr a

/-- R59: ADVANCE.PAD. -/
def Obligations.AdvancePadResult : Prop :=
  (∀ (s : State) (f : CycFields), f.rst = false → f.rxValid = true → f.rxByte ≠ s.cfg.magic →
    s.cfg.valCount ≤ s.cursor →
    classify s.cfg (live s) f = .advancePad f.rxByte f.flagClr (refreshOf f)) ∧
  ∀ (s : State) (rx : Byte) (clr : Bool) (wr : Option Refresh), Accepts s wr → s.cfg.valCount ≤ s.cursor →
    ∃ t, exec (.advancePad rx clr wr) s = .next t ∧
      t.txReg = s.cfg.pad ∧ t.cursor = s.cursor ∧ t.rxFlag = true ∧
      SameOutside s t ∧ ∀ a, readSlot t a = slotAfter s wr a

/-- R67: FLAG_CLR clears the flag and touches nothing else; at the edge of a byte event the flag ends at 1. -/
def Obligations.FlagClearResult : Prop :=
  (∀ (c : Config) (b : Bool) (f : CycFields), f.rst = false → f.rxValid = false → f.flagClr = true →
    classify c b f = .flagClr (refreshOf f)) ∧
  (∀ (s : State) (wr : Option Refresh), Accepts s wr →
    ∃ t, exec (.flagClr wr) s = .next t ∧
      t.rxFlag = false ∧ t.cursor = s.cursor ∧ t.txReg = s.txReg ∧
      SameOutside s t ∧ ∀ a, readSlot t a = slotAfter s wr a) ∧
  ∀ (s : State) (f : CycFields), Accepts s (refreshOf f) → f.rst = false → f.rxValid = true → f.flagClr = true →
    ∃ t, exec (classify s.cfg (live s) f) s = .next t ∧ t.rxFlag = true

/-- R69, R31: BUF_WR alone on its edge writes one slot and touches nothing else. -/
def Obligations.BufWriteResult : Prop :=
  (∀ (c : Config) (b : Bool) (f : CycFields), f.rst = false → f.rxValid = false → f.flagClr = false →
    f.bufWe = true → classify c b f = .bufWr ⟨f.bufWaddr, f.bufWdata⟩) ∧
  ∀ (s : State) (r : Refresh), Accepts s (some r) →
    ∃ t, exec (.bufWr r) s = .next t ∧
      readSlot t r.addr = r.data ∧ (∀ a, a ≠ r.addr → readSlot t a = readSlot s a) ∧
      t.cursor = s.cursor ∧ t.txReg = s.txReg ∧ t.rxFlag = s.rxFlag ∧ SameOutside s t

/-- R71: IDLE leaves the state as it is. -/
def Obligations.IdleResult : Prop :=
  (∀ (c : Config) (b : Bool) (f : CycFields),
    f.rst = false → f.rxValid = false → f.flagClr = false → f.bufWe = false → classify c b f = .idle) ∧
  ∀ s : State, s.cfg.wf = true → exec .idle s = .next s

/-- R95, R23: RESET. That a draw is a free value numbered from `draws` up, and so not drawn before, is the model's choice
(log 7, 8, 9). -/
def Obligations.ResetResult : Prop :=
  (∀ (c : Config) (b : Bool) (f : CycFields), f.rst = true → classify c b f = .reset (refreshOf f)) ∧
  ∀ (s : State) (wr : Option Refresh), Accepts s wr →
    ∃ t, exec (.reset wr) s = .next t ∧
      (∀ i b, i < s.cfg.bufCap → s.cfg.initSlot i = some b → readSlot t i = b) ∧
      (∀ i, i < s.cfg.bufCap → s.cfg.initSlot i = none →
        ∃ n, s.draws ≤ n ∧ n < t.draws ∧ readSlot t i = Config.freeByte n) ∧
      t.cursor = 0 ∧ t.rxFlag = false ∧
      (∃ n, s.draws ≤ n ∧ n < t.draws ∧ t.txReg = Config.freeByte n) ∧
      t.cfg = s.cfg ∧ t.inputs = s.inputs ∧ t.edges = s.edges ∧ t.loaded = s.loaded ∧ t.owed = s.owed

/-- R23: what the machine is right after reset, in the reference configuration. A draw is a free value of the model (log 7,
8). -/
def Obligations.ReferenceStateAfterReset : Prop :=
  State.reset.cfg = Config.reference ∧ State.reset.cursor = 0 ∧ State.reset.rxFlag = false ∧
  (List.range 5).map (readSlot State.reset) = [0x59, 0x43, 0x16, 0x15, 0x14] ∧
  (∃ n, State.reset.txReg = Config.freeByte n) ∧
  ∀ i, 5 ≤ i → i < 16 → ∃ n, readSlot State.reset i = Config.freeByte n

/-- R86: the priority among the events of one edge. -/
def Obligations.EventPriority : Prop :=
  ∀ (s : State) (f : CycFields), s.cfg.wf = true →
    (f.bufWe = true → (s.cfg.hasRefresh = false ∨ s.cfg.bufCap ≤ f.bufWaddr) →
      ∃ r, exec (classify s.cfg (live s) f) s = .refused r) ∧
    (Accepts s (refreshOf f) →
      (f.rst = true → exec (classify s.cfg (live s) f) s = .next (resetState s)) ∧
      (f.rst = false → ∃ t, exec (classify s.cfg (live s) f) s = .next t ∧
        (f.rxValid = true → t.rxFlag = true ∧
          (f.rxByte = s.cfg.magic → t.cursor = (if 0 < s.cfg.valCount then 1 else 0) ∧ t.txReg = streamByte s 0) ∧
          (f.rxByte ≠ s.cfg.magic →
            t.cursor = (if s.cursor < s.cfg.valCount then s.cursor + 1 else s.cursor) ∧
            t.txReg = streamByte s s.cursor)) ∧
        (f.rxValid = false → t.cursor = s.cursor ∧ t.txReg = s.txReg ∧
          t.rxFlag = (if f.flagClr = true then false else s.rxFlag)) ∧
        ∀ a, readSlot t a = (if f.bufWe = true ∧ a = f.bufWaddr then f.bufWdata else readSlot s a)))

-- Registers and the buffer, over every step

/-- R13 (and R15 for `tx_reg`): only a byte event and reset write `cursor`; without either, `tx_reg` holds too. -/
def Obligations.CursorWrittenOnlyByEventsAndReset : Prop :=
  ∀ s t : State, step s = .next t → (fieldsIn s).rst = false → (fieldsIn s).rxValid = false →
    t.cursor = s.cursor ∧ t.txReg = s.txReg

/-- R16: who writes `rx_flag`, and that the port `flag` shows it. -/
def Obligations.FlagAfterEveryStep : Prop :=
  ∀ s t : State, step s = .next t →
    t.rxFlag = (if (fieldsIn s).rst = true then false
      else if (fieldsIn s).rxValid = true then true
      else if (fieldsIn s).flagClr = true then false
      else s.rxFlag) ∧
    flagOut t = t.rxFlag

/-- R11, R30, R31: who writes the buffer. Reset loads every slot, an edge without reset changes at most the refreshed
slot, and no read changes anything. -/
def Obligations.BufferAfterEveryStep : Prop :=
  ∀ s t : State, step s = .next t →
    ((fieldsIn s).rst = true → ∀ i b, s.cfg.initSlot i = some b → readSlot t i = b) ∧
    ((fieldsIn s).rst = false → ∀ a,
      readSlot t a =
        if (fieldsIn s).bufWe = true ∧ a = (fieldsIn s).bufWaddr then (fieldsIn s).bufWdata else readSlot s a)

/-- R32: a byte event that reads the slot a refresh write of the same edge writes gets the old contents. -/
def Obligations.SameEdgeReadIsOld : Prop :=
  ∀ (s : State) (f : CycFields), Accepts s (refreshOf f) → f.rst = false → f.rxValid = true → f.bufWe = true →
    f.bufWaddr = cursorFrom s (rxClass s.cfg f.rxByte) → f.bufWaddr < s.cfg.valCount →
    ∃ t, exec (classify s.cfg (live s) f) s = .next t ∧ t.txReg = readSlot s f.bufWaddr ∧
      readSlot t f.bufWaddr = f.bufWdata

/-- R33: a refresh write is seen by later byte events: it stands after its edge, it stays until a reset or another write
to its slot, and a byte event that reads the slot sends it. -/
def Obligations.RefreshSeenByLaterEvents : Prop :=
  (∀ s t : State, step s = .next t → (fieldsIn s).rst = false → (fieldsIn s).bufWe = true →
    readSlot t (fieldsIn s).bufWaddr = (fieldsIn s).bufWdata) ∧
  (∀ (s t : State) (i : Nat), step s = .next t → (fieldsIn s).rst = false →
    ¬ ((fieldsIn s).bufWe = true ∧ (fieldsIn s).bufWaddr = i) → readSlot t i = readSlot s i) ∧
  ∀ (s t : State) (i : Nat), step s = .next t → (fieldsIn s).rst = false → (fieldsIn s).rxValid = true →
    i = cursorFrom s (rxClass s.cfg (fieldsIn s).rxByte) → i < s.cfg.valCount → t.txReg = readSlot s i

/-- The model's choice (log 8), not the spec's: the buffer is held as a canonical list. The canonical form makes equal
buffers equal data: two canonical memories that read the same in every slot are the same list. -/
def Obligations.EqualContentsAreEqualData : Prop :=
  ∀ (c : Config) (base : Nat) (m m' : Memory), Memory.wf c base m → Memory.wf c base m' →
    (∀ a, (Memory.find m a).getD (unlisted c base a) = (Memory.find m' a).getD (unlisted c base a)) → m = m'

/-- R60: the increment never leaves `CUR_W` bits, and the cursor fits its register; 16 fits in 5 bits. -/
def Obligations.CursorFitsItsRegister : Prop :=
  (∀ (s : State) (k : RxClass), StateInv s →
    s.cursor < 2 ^ s.cfg.curW ∧
    (cursorFrom s k < s.cfg.valCount →
      cursorFrom s k + 1 ≤ s.cfg.valCount ∧ s.cfg.valCount ≤ s.cfg.bufCap ∧ s.cfg.bufCap ≤ 2 ^ s.cfg.curW - 1)) ∧
  Config.reference.curW = 5 ∧ 16 ≤ 2 ^ Config.reference.curW - 1

-- The invariant

/-- The invariant holds in every state a run can start in, and in the machine's reset state (R23, R96). Its clause on the
buffer's canonical form is the model's choice (log 8). -/
def Obligations.ResetMeetsInvariant : Prop :=
  (∀ (c : Config) (inputs : List Edge), c.wf = true → StateInv { State.resetFor c with inputs := inputs }) ∧ StateInv State.reset

/-- Every step keeps the invariant: the configuration stays well formed (R5, R6), the cursor within `0 .. VAL_COUNT`
(R17), the buffer canonical, which is the model's choice (log 8). -/
def Obligations.StepKeepsInvariant : Prop :=
  ∀ s t : State, StateInv s → step s = .next t → StateInv t

/-- R17: in every state reachable from reset under a well-formed configuration, the cursor is at most `VAL_COUNT`. -/
def Obligations.CursorBoundedInReachableStates : Prop :=
  ∀ (c : Config) (s : State), c.wf = true → Reachable c s → s.cfg = c ∧ s.cursor ≤ c.valCount

-- The byte stream

/-- R61: an ADVANCE does not depend on its byte. -/
def Obligations.AdvanceIgnoresItsByte : Prop :=
  ∀ (s : State) (f : CycFields) (b : Byte), f.rst = false → f.rxValid = true → f.rxByte ≠ s.cfg.magic →
    b ≠ s.cfg.magic →
    exec (classify s.cfg (live s) { f with rxByte := b }) s = exec (classify s.cfg (live s) f) s

/-- R62: two RESYNC events in a row leave the cursor and `tx_reg` of one. -/
def Obligations.ResyncIsIdempotent : Prop :=
  ∀ (s : State) (clr clr' : Bool), s.cfg.wf = true →
    ∃ t t', exec (.resync clr none) s = .next t ∧ exec (.resync clr' none) t = .next t' ∧
      t'.cursor = t.cursor ∧ t'.txReg = t.txReg ∧ t.rxFlag = true ∧ t'.rxFlag = true ∧
      (0 < s.cfg.valCount → t.cursor = 1 ∧ t.txReg = readSlot s 0) ∧
      (s.cfg.valCount = 0 → t.cursor = 0 ∧ t.txReg = s.cfg.pad)

/-- R63: exhaustion absorbs every ADVANCE. -/
def Obligations.ExhaustionAbsorbsAdvances : Prop :=
  ∀ (s : State) (b : Byte) (bs : List Byte), s.cursor = s.cfg.valCount → (∀ x ∈ b :: bs, x ≠ s.cfg.magic) →
    (afterExchanges s (b :: bs)).cursor = s.cfg.valCount ∧ (afterExchanges s (b :: bs)).txReg = s.cfg.pad

/-- R65: the stream law. The sequence is every prefix of the events; `IDLE` is no event. -/
def Obligations.StreamLaw : Prop :=
  ∀ (s : State) (evs : List TraceEvent),
    (∀ ev ∈ evs, ev = .clr ∨ ∃ rx, rx ≠ s.cfg.magic ∧ ev = .exch rx) →
    (runEvents s (.exch s.cfg.magic :: evs)).txReg = streamByte s (evs.countP TraceEvent.isExch) ∧
    (runEvents s (.exch s.cfg.magic :: evs)).cursor = min (evs.countP TraceEvent.isExch + 1) s.cfg.valCount

/-- R27: from `cursor = 0` with no magic byte, the initiator receives the live slots in ascending order and then `PAD`,
one exchange later. -/
def Obligations.StreamOrderFromCursorZero : Prop :=
  ∀ (s : State) (bs : List Byte), s.cursor = 0 → (∀ x ∈ bs, x ≠ s.cfg.magic) →
    (misoOf s bs).drop 1 = (List.range (bs.length - 1)).map (streamByte s)

/-- R48: an edge equals its actions in the order CLR, EXCH, WR; a reset edge equals RST. -/
def Obligations.EdgeEqualsItsActions : Prop :=
  ∀ (s : State) (f : CycFields), Accepts s (refreshOf f) →
    (f.rst = false → exec (classify s.cfg (live s) f) s = .next (runEvents s (edgeActions f))) ∧
    (f.rst = true → exec (classify s.cfg (live s) f) s = .next (runEvents s [.rst]))

/-- R46, R47, R48, R15: over edges that carry exchanges within the deadline (log 10, 18, 19), whatever quiet edges lie
between, the machine sends what the transaction view sends and ends where it ends. -/
def Obligations.EdgesRefineExchanges : Prop :=
  ∀ (s : State) (bytes : List Byte) (xs : List ExchangeEdges) (rest : List Edge),
    s.cfg.wf = true → s.owed = false → List.Forall₂ (Carries s.cfg) bytes xs → s.inputs = allEdges xs ++ rest →
    (observe (allEdges xs).length s).stop = none ∧
    (observe (allEdges xs).length s).sent = misoOf s bytes ∧
    ∃ t, core.run (allEdges xs).length s = .next t ∧
      t.cursor = (afterExchanges s bytes).cursor ∧ t.txReg = (afterExchanges s bytes).txReg ∧
      (bytes ≠ [] → t.rxFlag = true) ∧ (∀ i < s.cfg.valCount, readSlot t i = readSlot s i) ∧
      t.inputs = rest ∧ t.owed = false ∧ t.loaded = s.loaded + bytes.length

/-- R77: the frame law, from any state, over any edges that carry the frame; the discarded byte is the `tx_reg` from
before it (R78). That nothing is owed at the start, which edges carry the frame within the deadline (R98), and what is
observed of a run that does not stop rest on the model's bookkeeping (log 10, 15, 18, 19). -/
def Obligations.FrameLaw : Prop :=
  ∀ (s : State) (xs : List ExchangeEdges) (rest : List Edge),
    s.cfg.wf = true → s.cfg.magic ≠ 0 → s.owed = false →
    List.Forall₂ (Carries s.cfg) (initiatorSends s.cfg) xs → s.inputs = allEdges xs ++ rest →
    (observe (allEdges xs).length s).stop = none ∧
    (observe (allEdges xs).length s).sent.head? = some s.txReg ∧
    captured (observe (allEdges xs).length s).sent = (List.range s.cfg.frameBody).map (streamByte s) ∧
    (s.cfg = Config.reference → (∀ i < 5, some (readSlot s i) = Config.reference.initSlot i) →
      captured (observe (allEdges xs).length s).sent = [0x59, 0x43, 0x16, 0x15, 0x14]) ∧
    ∃ t, core.run (allEdges xs).length s = .next t ∧
      t.cursor = min (s.cfg.frameBody + 1) s.cfg.valCount ∧ t.txReg = streamByte s s.cfg.frameBody ∧ t.rxFlag = true

/-- R80: two frames in a row, with no refresh write to a live slot, give the same captured bytes. The premises on what is
owed and on the edges that carry the frames, and the observation, rest on the model's bookkeeping (log 10, 15, 18, 19). -/
def Obligations.TwoFramesCaptureTheSame : Prop :=
  ∀ (s : State) (xs ys : List ExchangeEdges) (rest : List Edge),
    s.cfg.wf = true → s.cfg.magic ≠ 0 → s.owed = false →
    List.Forall₂ (Carries s.cfg) (initiatorSends s.cfg) xs → List.Forall₂ (Carries s.cfg) (initiatorSends s.cfg) ys →
    s.inputs = allEdges (xs ++ ys) ++ rest →
    ∃ a b, (observe (allEdges (xs ++ ys)).length s).sent = a ++ b ∧
      (observe (allEdges (xs ++ ys)).length s).stop = none ∧
      a.length = s.cfg.frameBody + 1 ∧ captured a = captured b ∧
      captured a = (List.range s.cfg.frameBody).map (streamByte s)

/-- R79: a frame cut after `m` exchanges leaves the cursor at `min(m, VAL_COUNT)`, and the next frame captures what R77
gives. -/
def Obligations.TruncatedFrameHeals : Prop :=
  ∀ (s : State) (m : Nat), 1 ≤ m → s.cfg.magic ≠ 0 →
    (afterExchanges s ((initiatorSends s.cfg).take m)).cursor = min (min m (s.cfg.frameBody + 1)) s.cfg.valCount ∧
    captured (misoOf (afterExchanges s ((initiatorSends s.cfg).take m)) (initiatorSends s.cfg)) =
      (List.range s.cfg.frameBody).map (streamByte s)

/-- R79: an exchange whose byte event is missed repeats its byte. While no byte event and no reset comes, every load
sends the same byte. -/
def Obligations.ByteRepeatsWithoutAnEvent : Prop :=
  ∀ (s : State) (es rest : List Edge), s.inputs = es ++ rest →
    (∀ e ∈ es, (unpack s.cfg e.cyc).rst = false ∧ (unpack s.cfg e.cyc).rxValid = false) →
    ∀ b ∈ (observe es.length s).sent, b = s.txReg

/-- R81, R64: a `MAGIC` at any place of the stream restarts the received bytes at slot 0. -/
def Obligations.MagicRestartsTheStream : Prop :=
  ∀ (s : State) (xs ys : List Byte), (∀ y ∈ ys, y ≠ s.cfg.magic) →
    (misoOf s (xs ++ s.cfg.magic :: ys)).drop (xs.length + 1) = (List.range ys.length).map (streamByte s)

/-- R81: with `MAGIC = 0x00` the standard frame captures slot 0 throughout, when `VAL_COUNT > 0`. -/
def Obligations.ZeroMagicFrameRepeatsSlotZero : Prop :=
  ∀ s : State, s.cfg.magic = 0 → 0 < s.cfg.valCount →
    captured (misoOf s (initiatorSends s.cfg)) = List.replicate s.cfg.frameBody (readSlot s 0)

/-- R103: after a reset in the middle of a frame, the next exchange sends the drawn byte, a free value of the model
(log 7), and its ADVANCE starts at slot 0. -/
def Obligations.ResetInAFrameRestartsAtSlotZero : Prop :=
  ∀ (s : State) (b : Byte) (bs : List Byte), (∀ x ∈ b :: bs, x ≠ s.cfg.magic) →
    (∃ n, (misoOf (resetState s) (b :: bs)).head? = some (Config.freeByte n)) ∧
    (misoOf (resetState s) (b :: bs)).drop 1 = (List.range bs.length).map (streamByte (resetState s)) ∧
    (0 < s.cfg.valCount → (TraceEvent.apply (resetState s) (.exch b)).cursor = 1 ∧
      (TraceEvent.apply (resetState s) (.exch b)).txReg = readSlot (resetState s) 0)

-- The deadline and the fault

/-- R98, R99: a load that begins exchange `k+1` at or before the edge of exchange `k`'s byte event is `DeadlineMissed(k+1)`
and sends no value. That the exchange is owed its event from its load to the edge that samples its own event, or gives it
up, is the model's bookkeeping (log 10, 18, 19). -/
def Obligations.LateLoadFaults : Prop :=
  (∀ (s : State) (n : Nat), (edgeIn s).cyc.toNat < 2 ^ cycWidth s.cfg → Accepts s (refreshOf (fieldsIn s)) →
    (edgeIn s).load = true → s.owed = true → (edgeIn s).dropped = false →
    step s = .fault (.deadlineMissed (s.loaded + 1)) ∧ (observe (n + 1) s).sent = []) ∧
  ∀ s t : State, step s = .next t →
    t.loaded = s.loaded + (if (edgeIn s).load = true then 1 else 0) ∧
    (t.owed = true ↔ ((edgeIn s).load = true ∨ (s.owed = true ∧ (edgeIn s).dropped = false)) ∧
      ¬ ((fieldsIn s).rxValid = true ∧ (edgeIn s).extra = false))

/-- R98 with `MIN_GAP = 1`: after an edge that samples an exchange's own byte event, no load is late, that of the very next
edge included. Which event is an exchange's own is the mark of the edge (log 19). -/
def Obligations.LoadAfterTheEventIsInTime : Prop :=
  ∀ s t : State, step s = .next t → (fieldsIn s).rxValid = true → (edgeIn s).extra = false →
    (∀ e, late t e = false) ∧
    ((edgeIn t).cyc.toNat < 2 ^ cycWidth t.cfg → Accepts t (refreshOf (fieldsIn t)) → ∃ u, step t = .next u)

/-- R99: from exchange `k`'s load on, whatever extra byte events, resets and host events the edges carry, a load before or at
the edge of its own event is `DeadlineMissed(k+1)`, unless that event is given up. The marks of the edges are the model's
(log 10, 19). -/
def Obligations.NoLoadBeforeTheOwnEvent : Prop :=
  ∀ (s t : State) (es : List Edge) (e : Edge) (rest : List Edge),
    s.owed = true → s.inputs = es ++ e :: rest → core.run es.length s = .next t →
    (∀ x ∈ es, x.load = false ∧ x.dropped = false ∧ ((unpack s.cfg x.cyc).rxValid = true → x.extra = true)) →
    e.cyc.toNat < 2 ^ cycWidth s.cfg → Accepts t (refreshOf (unpack s.cfg e.cyc)) →
    e.load = true → e.dropped = false →
    step t = .fault (.deadlineMissed (s.loaded + 1))

/-- R49, R48, R15: the edge of a trace line does what the line's actions do, an event alone on its line being its own
action, and an exchange sends the `tx_reg` from before it, also where exchanges stand on consecutive lines. That an
exchange's load falls on its line is the model's reading (log 18), and so is a line that names a kind of event twice (log
20). -/
def Obligations.TraceLineRunsItsActions : Prop :=
  (∀ (s : State) (evs : List TraceEvent) (rest : List Edge), s.cfg.wf = true → s.owed = false →
    (∀ i v, .wr i v ∈ evs → s.cfg.hasRefresh = true ∧ i < s.cfg.bufCap) → s.inputs = lineEdge s.cfg evs :: rest →
    ∃ t, step s = .next t ∧ t.cursor = (runEvents s (lineActions evs)).cursor ∧
      t.txReg = (runEvents s (lineActions evs)).txReg ∧ t.rxFlag = (runEvents s (lineActions evs)).rxFlag ∧
      (∀ a, readSlot t a = readSlot (runEvents s (lineActions evs)) a) ∧ t.cfg = s.cfg ∧ t.inputs = rest ∧
      t.owed = false ∧ (observe 1 s).sent = (if evs.any TraceEvent.isExch then [s.txReg] else [])) ∧
  ∀ (s : State) (ev : TraceEvent), runEvents s (lineActions [ev]) = ev.apply s

/-- R82, R83: no instruction faults, and a step faults only with `DeadlineMissed`, at a load that is late by the model's
bookkeeping (log 10). -/
def Obligations.OnlyLateLoadsFault : Prop :=
  (∀ (i : Instr) (s : State) (r : Fault), exec i s ≠ .fault r) ∧
  ∀ (s : State) (r : Fault), step s = .fault r →
    r = .deadlineMissed (s.loaded + 1) ∧ (edgeIn s).load = true ∧ s.owed = true ∧ (edgeIn s).dropped = false

-- What cannot be observed

/-- R25: the contents of the slots at and above `VAL_COUNT` are never observed, however long the run. The observation is
that of R105, read as log 15 says. -/
def Obligations.UnusedSlotsAreUnobservable : Prop :=
  ∀ (n : Nat) (s s' : State), LiveEq s s' → observe n s' = observe n s

/-- R20, R73: the flag and the host's clears never reach the stream: two machines that differ in `rx_flag` and in the
`flag_clr` strobes of their schedules send the same bytes and stop alike. The observation is read as log
15 says. -/
def Obligations.FlagNeverReachesTheStream : Prop :=
  ∀ (n : Nat) (s : State) (flag : Bool) (es : List Edge), List.Forall₂ (SameButClr s.cfg) s.inputs es →
    (observe n { s with rxFlag := flag, inputs := es }).sent = (observe n s).sent ∧
    (observe n { s with rxFlag := flag, inputs := es }).stop = (observe n s).stop
end

