-- ==== Sys2Proof/Laws/Decode.lean ====
section
/-! SUPPORT. The bit fields of a CYC word: packing fits the width, and unpacking gives each field back. -/

namespace Sys2Proof

theorem clog2_le_of_le {n k : Nat} (h : n ≤ 2 ^ k) : clog2 n ≤ k := by
  unfold clog2
  split
  · omega
  · have : n - 1 ≠ 0 := by omega
    exact (Nat.log2_lt this).2 (by omega)

theorem le_two_pow_clog2 (n : Nat) : n ≤ 2 ^ clog2 n := by
  unfold clog2
  split
  · simpa using ‹n ≤ 1›
  · have := @Nat.lt_log2_self (n - 1)
    omega

/-- A well-formed configuration has at most 256 slots (R5), so `ADDR_W` is at most 8. -/
theorem addrW_le_eight {c : Config} (h : c.wf = true) : c.addrW ≤ 8 := by
  have hb : c.bufCap ≤ 2 ^ 8 := by
    unfold Config.wf Config.failed at h
    split at h
    · cases h
    · rename_i hc; simp only [not_not] at hc; exact hc.2
  unfold Config.addrW
  have := clog2_le_of_le hb
  omega

theorem bitVal_le_one (b : Bool) : bitVal b ≤ 1 := by cases b <;> decide

/-- The index field and the data field together stay below their width. -/
theorem tail_lt {a A d : Nat} (ha : a < 2 ^ A) (hd : d < 256) : a + 2 ^ A * d < 2 ^ A * 2 ^ 8 := by
  have : 2 ^ A * d ≤ 2 ^ A * 255 := Nat.mul_le_mul_left _ (by omega)
  omega

/-- Fields whose index fits `buf_waddr` pack into `20 + ADDR_W` bits (R42). -/
theorem packNat_lt {c : Config} {f : CycFields} (ha : f.bufWaddr < 2 ^ c.addrW) :
    packNat c f < 2 ^ cycWidth c := by
  have h1 := f.rxByte.isLt
  have h2 := bitVal_le_one f.rxValid
  have h3 := bitVal_le_one f.flagClr
  have h4 := bitVal_le_one f.bufWe
  have h5 := bitVal_le_one f.rst
  have h6 := tail_lt ha f.bufWdata.isLt
  have h7 : 2 ^ cycWidth c = 2 ^ 12 * (2 ^ c.addrW * 2 ^ 8) := by
    rw [cycWidth, show 20 + c.addrW = 12 + (c.addrW + 8) by omega, pow_add, pow_add]
  rw [h7]
  unfold packNat
  omega

/-- Under a well-formed configuration the packed number is the word. -/
theorem toNat_pack {c : Config} {f : CycFields} (hc : c.wf = true) (ha : f.bufWaddr < 2 ^ c.addrW) :
    (pack c f).toNat = packNat c f := by
  have h := packNat_lt ha
  have h8 : 2 ^ cycWidth c ≤ 2 ^ 28 := Nat.pow_le_pow_right (by omega) (by have := addrW_le_eight hc; unfold cycWidth; omega)
  simp only [pack, BitVec.toNat_ofNat]
  exact Nat.mod_eq_of_lt (by omega)

theorem toNat_pack_lt {c : Config} {f : CycFields} (hc : c.wf = true) (ha : f.bufWaddr < 2 ^ c.addrW) :
    (pack c f).toNat < 2 ^ cycWidth c := by
  rw [toNat_pack hc ha]; exact packNat_lt ha

/-- Unpacking a packed word gives the fields back, at every value the port widths admit (R42). -/
theorem unpack_pack {c : Config} {f : CycFields} (hc : c.wf = true) (ha : f.bufWaddr < 2 ^ c.addrW) :
    unpack c (pack c f) = f := by
  have h1 := f.rxByte.isLt
  have h2 := bitVal_le_one f.rxValid
  have h3 := bitVal_le_one f.flagClr
  have h4 := bitVal_le_one f.bufWe
  have h5 := bitVal_le_one f.rst
  have hd := f.bufWdata.isLt
  have bit : ∀ b : Bool, (bitVal b == 1) = b := by decide
  have hn := toNat_pack hc ha
  generalize ht : f.bufWaddr + 2 ^ c.addrW * f.bufWdata.toNat = t at *
  have hp : packNat c f = f.rxByte.toNat + 2 ^ 8 * bitVal f.rxValid + 2 ^ 9 * bitVal f.flagClr
      + 2 ^ 10 * bitVal f.bufWe + 2 ^ 11 * bitVal f.rst + 2 ^ 12 * t := by rw [packNat, ht]
  have e12 : packNat c f / 2 ^ 12 = t := by rw [hp]; omega
  have ea : t % 2 ^ c.addrW = f.bufWaddr := by
    rw [← ht, Nat.add_mul_mod_self_left, Nat.mod_eq_of_lt ha]
  have ed : t / 2 ^ c.addrW = f.bufWdata.toNat := by
    rw [← ht, Nat.add_mul_div_left _ _ (by positivity), Nat.div_eq_of_lt ha, Nat.zero_add]
  have hx : packNat c f % 256 = f.rxByte.toNat := by rw [hp]; omega
  have b8 : packNat c f / 2 ^ 8 % 2 = bitVal f.rxValid := by rw [hp]; omega
  have b9 : packNat c f / 2 ^ 9 % 2 = bitVal f.flagClr := by rw [hp]; omega
  have b10 : packNat c f / 2 ^ 10 % 2 = bitVal f.bufWe := by rw [hp]; omega
  have b11 : packNat c f / 2 ^ 11 % 2 = bitVal f.rst := by rw [hp]; omega
  unfold unpack bitAt
  rw [hn, b8, b9, b10, b11, e12, ea, pow_add, ← Nat.div_div_eq_div_mul, e12, ed]
  simp only [bit]
  have hb : BitVec.ofNat 8 (packNat c f) = f.rxByte := by
    apply BitVec.eq_of_toNat_eq; simpa using hx
  have hdd : BitVec.ofNat 8 f.bufWdata.toNat = f.bufWdata := by simp
  rw [hb, hdd]

/-- What a refresh write asks of its instruction's fields. -/
theorem waddr_withRefresh {c : Config} {f : CycFields} {wr : Option Refresh} (hf : f.bufWaddr = 0)
    (h : wrWf c wr = true) : (f.withRefresh wr).bufWaddr < 2 ^ c.addrW := by
  cases wr with
  | none => simp only [CycFields.withRefresh, hf]; positivity
  | some r => simpa [wrWf, Refresh.wf, CycFields.withRefresh] using h

/-- The fields of a well-formed instruction fit their ports. -/
theorem waddr_fields {c : Config} {i : Instr} (h : i.wf c = true) : (i.fields c).bufWaddr < 2 ^ c.addrW := by
  cases i with
  | reset wr => exact waddr_withRefresh rfl h
  | resync clr wr => exact waddr_withRefresh rfl h
  | advanceEmit rx clr wr => exact waddr_withRefresh rfl (by simp [Instr.wf] at h; exact h.2)
  | advancePad rx clr wr => exact waddr_withRefresh rfl (by simp [Instr.wf] at h; exact h.2)
  | flagClr wr => exact waddr_withRefresh rfl h
  | bufWr r => exact waddr_withRefresh (wr := some r) rfl (by simpa [wrWf, Instr.wf] using h)
  | idle => simp only [Instr.fields]; positivity

end Sys2Proof
end

