-- ==== Sys2Proof/Laws/State.lean ====
section
/-! SUPPORT. Every field of every named update of State, so that no proof unfolds a record update. -/

namespace Sys2Proof.Machine

@[simp] theorem latch_cfg (s : State) (tx : Byte) (cur : Nat) (flag : Bool) : (latch s tx cur flag).cfg = s.cfg := rfl
@[simp] theorem latch_buf (s : State) (tx : Byte) (cur : Nat) (flag : Bool) : (latch s tx cur flag).buf = s.buf := rfl
@[simp] theorem latch_cursor (s : State) (tx : Byte) (cur : Nat) (flag : Bool) : (latch s tx cur flag).cursor = cur := rfl
@[simp] theorem latch_txReg (s : State) (tx : Byte) (cur : Nat) (flag : Bool) : (latch s tx cur flag).txReg = tx := rfl
@[simp] theorem latch_rxFlag (s : State) (tx : Byte) (cur : Nat) (flag : Bool) : (latch s tx cur flag).rxFlag = flag := rfl
@[simp] theorem latch_bufDraw (s : State) (tx : Byte) (cur : Nat) (flag : Bool) : (latch s tx cur flag).bufDraw = s.bufDraw := rfl
@[simp] theorem latch_draws (s : State) (tx : Byte) (cur : Nat) (flag : Bool) : (latch s tx cur flag).draws = s.draws := rfl
@[simp] theorem latch_inputs (s : State) (tx : Byte) (cur : Nat) (flag : Bool) : (latch s tx cur flag).inputs = s.inputs := rfl
@[simp] theorem latch_edges (s : State) (tx : Byte) (cur : Nat) (flag : Bool) : (latch s tx cur flag).edges = s.edges := rfl
@[simp] theorem latch_loaded (s : State) (tx : Byte) (cur : Nat) (flag : Bool) : (latch s tx cur flag).loaded = s.loaded := rfl
@[simp] theorem latch_owed (s : State) (tx : Byte) (cur : Nat) (flag : Bool) : (latch s tx cur flag).owed = s.owed := rfl

@[simp] theorem setFlag_cfg (s : State) (v : Bool) : (setFlag s v).cfg = s.cfg := rfl
@[simp] theorem setFlag_buf (s : State) (v : Bool) : (setFlag s v).buf = s.buf := rfl
@[simp] theorem setFlag_cursor (s : State) (v : Bool) : (setFlag s v).cursor = s.cursor := rfl
@[simp] theorem setFlag_txReg (s : State) (v : Bool) : (setFlag s v).txReg = s.txReg := rfl
@[simp] theorem setFlag_rxFlag (s : State) (v : Bool) : (setFlag s v).rxFlag = v := rfl
@[simp] theorem setFlag_bufDraw (s : State) (v : Bool) : (setFlag s v).bufDraw = s.bufDraw := rfl
@[simp] theorem setFlag_draws (s : State) (v : Bool) : (setFlag s v).draws = s.draws := rfl
@[simp] theorem setFlag_inputs (s : State) (v : Bool) : (setFlag s v).inputs = s.inputs := rfl
@[simp] theorem setFlag_edges (s : State) (v : Bool) : (setFlag s v).edges = s.edges := rfl
@[simp] theorem setFlag_loaded (s : State) (v : Bool) : (setFlag s v).loaded = s.loaded := rfl
@[simp] theorem setFlag_owed (s : State) (v : Bool) : (setFlag s v).owed = s.owed := rfl

@[simp] theorem writeSlot_cfg (s : State) (i : Nat) (v : Byte) : (writeSlot s i v).cfg = s.cfg := rfl
@[simp] theorem writeSlot_buf (s : State) (i : Nat) (v : Byte) : (writeSlot s i v).buf = Memory.write s.cfg s.bufDraw s.buf i v := rfl
@[simp] theorem writeSlot_cursor (s : State) (i : Nat) (v : Byte) : (writeSlot s i v).cursor = s.cursor := rfl
@[simp] theorem writeSlot_txReg (s : State) (i : Nat) (v : Byte) : (writeSlot s i v).txReg = s.txReg := rfl
@[simp] theorem writeSlot_rxFlag (s : State) (i : Nat) (v : Byte) : (writeSlot s i v).rxFlag = s.rxFlag := rfl
@[simp] theorem writeSlot_bufDraw (s : State) (i : Nat) (v : Byte) : (writeSlot s i v).bufDraw = s.bufDraw := rfl
@[simp] theorem writeSlot_draws (s : State) (i : Nat) (v : Byte) : (writeSlot s i v).draws = s.draws := rfl
@[simp] theorem writeSlot_inputs (s : State) (i : Nat) (v : Byte) : (writeSlot s i v).inputs = s.inputs := rfl
@[simp] theorem writeSlot_edges (s : State) (i : Nat) (v : Byte) : (writeSlot s i v).edges = s.edges := rfl
@[simp] theorem writeSlot_loaded (s : State) (i : Nat) (v : Byte) : (writeSlot s i v).loaded = s.loaded := rfl
@[simp] theorem writeSlot_owed (s : State) (i : Nat) (v : Byte) : (writeSlot s i v).owed = s.owed := rfl

@[simp] theorem resetState_cfg (s : State) : (resetState s).cfg = s.cfg := rfl
@[simp] theorem resetState_buf (s : State) : (resetState s).buf = [] := rfl
@[simp] theorem resetState_cursor (s : State) : (resetState s).cursor = 0 := rfl
@[simp] theorem resetState_txReg (s : State) : (resetState s).txReg = Config.freeByte (s.draws + s.cfg.bufCap) := rfl
@[simp] theorem resetState_rxFlag (s : State) : (resetState s).rxFlag = false := rfl
@[simp] theorem resetState_bufDraw (s : State) : (resetState s).bufDraw = s.draws := rfl
@[simp] theorem resetState_draws (s : State) : (resetState s).draws = s.draws + s.cfg.bufCap + 1 := rfl
@[simp] theorem resetState_inputs (s : State) : (resetState s).inputs = s.inputs := rfl
@[simp] theorem resetState_edges (s : State) : (resetState s).edges = s.edges := rfl
@[simp] theorem resetState_loaded (s : State) : (resetState s).loaded = s.loaded := rfl
@[simp] theorem resetState_owed (s : State) : (resetState s).owed = s.owed := rfl

@[simp] theorem advance_cfg (s : State) (e : Edge) : (advance s e).cfg = s.cfg := rfl
@[simp] theorem advance_buf (s : State) (e : Edge) : (advance s e).buf = s.buf := rfl
@[simp] theorem advance_cursor (s : State) (e : Edge) : (advance s e).cursor = s.cursor := rfl
@[simp] theorem advance_txReg (s : State) (e : Edge) : (advance s e).txReg = s.txReg := rfl
@[simp] theorem advance_rxFlag (s : State) (e : Edge) : (advance s e).rxFlag = s.rxFlag := rfl
@[simp] theorem advance_bufDraw (s : State) (e : Edge) : (advance s e).bufDraw = s.bufDraw := rfl
@[simp] theorem advance_draws (s : State) (e : Edge) : (advance s e).draws = s.draws := rfl
@[simp] theorem advance_inputs (s : State) (e : Edge) : (advance s e).inputs = s.inputs.tail := rfl
@[simp] theorem advance_edges (s : State) (e : Edge) : (advance s e).edges = s.edges + 1 := rfl
@[simp] theorem advance_loaded (s : State) (e : Edge) : (advance s e).loaded = s.loaded + bitVal e.load := rfl
@[simp] theorem advance_owed (s : State) (e : Edge) : (advance s e).owed = ((e.load || (s.owed && !e.dropped)) && !ownEvent s.cfg e) := rfl

@[simp] theorem withFetchWord_cfg (s : State) (n w : Nat) : (s.withFetchWord n w).cfg = s.cfg := rfl
@[simp] theorem withFetchWord_buf (s : State) (n w : Nat) : (s.withFetchWord n w).buf = s.buf := rfl
@[simp] theorem withFetchWord_cursor (s : State) (n w : Nat) : (s.withFetchWord n w).cursor = s.cursor := rfl
@[simp] theorem withFetchWord_txReg (s : State) (n w : Nat) : (s.withFetchWord n w).txReg = s.txReg := rfl
@[simp] theorem withFetchWord_rxFlag (s : State) (n w : Nat) : (s.withFetchWord n w).rxFlag = s.rxFlag := rfl
@[simp] theorem withFetchWord_bufDraw (s : State) (n w : Nat) : (s.withFetchWord n w).bufDraw = s.bufDraw := rfl
@[simp] theorem withFetchWord_draws (s : State) (n w : Nat) : (s.withFetchWord n w).draws = s.draws := rfl
@[simp] theorem withFetchWord_inputs (s : State) (n w : Nat) : (s.withFetchWord n w).inputs = { cyc := BitVec.ofNat 28 (w % 2 ^ n) } :: s.inputs := rfl
@[simp] theorem withFetchWord_edges (s : State) (n w : Nat) : (s.withFetchWord n w).edges = s.edges := rfl
@[simp] theorem withFetchWord_loaded (s : State) (n w : Nat) : (s.withFetchWord n w).loaded = s.loaded := rfl
@[simp] theorem withFetchWord_owed (s : State) (n w : Nat) : (s.withFetchWord n w).owed = s.owed := rfl

end Sys2Proof.Machine
end

