-- ==== Sys2Proof/Laws/Memory.lean ====
section
/-! SUPPORT. The laws of the buffer: a read after a write, and the canonical form. -/

namespace Sys2Proof.Machine

theorem Memory.find_put_same (m : Memory) (a : Nat) (v : Byte) : Memory.find (Memory.put m a v) a = some v := by
  induction m with
  | nil => simp [Memory.put, Memory.find]
  | cons x m ih =>
    obtain ⟨b, w⟩ := x
    simp only [Memory.put]
    split
    · simp [Memory.find]
    · split
      · simp [Memory.find]
      · rename_i h; simp [Memory.find, Ne.symm h, ih]

theorem Memory.find_put_other (m : Memory) {a b : Nat} (v : Byte) (h : b ≠ a) :
    Memory.find (Memory.put m a v) b = Memory.find m b := by
  induction m with
  | nil => simp [Memory.put, Memory.find, Ne.symm h]
  | cons x m ih =>
    obtain ⟨c, w⟩ := x
    simp only [Memory.put]
    split
    · simp [Memory.find, Ne.symm h]
    · split
      · rename_i e; subst e; simp [Memory.find, Ne.symm h]
      · simp [Memory.find, ih]

theorem Memory.find_drop_same (m : Memory) (a : Nat) : Memory.find (Memory.drop m a) a = none := by
  induction m with
  | nil => rfl
  | cons x m ih =>
    obtain ⟨b, w⟩ := x
    simp only [Memory.drop]
    split
    · exact ih
    · simp [Memory.find, *]

theorem Memory.find_drop_other (m : Memory) {a b : Nat} (h : b ≠ a) :
    Memory.find (Memory.drop m a) b = Memory.find m b := by
  induction m with
  | nil => rfl
  | cons x m ih =>
    obtain ⟨c, w⟩ := x
    simp only [Memory.drop]
    split
    · rename_i e; subst e; simp [Memory.find, Ne.symm h, ih]
    · simp [Memory.find, ih]

/-- A read of the slot just written gives the byte written (R31), in every state. -/
theorem readSlot_writeSlot_same (s : State) (a : Nat) (v : Byte) : readSlot (writeSlot s a v) a = v := by
  simp only [readSlot, writeSlot_buf, writeSlot_cfg, writeSlot_bufDraw, Memory.write]
  split
  · simp [Memory.find_drop_same, *]
  · simp [Memory.find_put_same]

/-- A write leaves every other slot alone (R31). -/
theorem readSlot_writeSlot_other (s : State) {a b : Nat} (v : Byte) (h : b ≠ a) :
    readSlot (writeSlot s a v) b = readSlot s b := by
  simp only [readSlot, writeSlot_buf, writeSlot_cfg, writeSlot_bufDraw, Memory.write]
  split
  · rw [Memory.find_drop_other _ h]
  · rw [Memory.find_put_other _ _ h]

/-- The registers of a byte event leave the buffer alone (R30). -/
theorem readSlot_latch (s : State) (tx : Byte) (cur : Nat) (flag : Bool) (a : Nat) :
    readSlot (latch s tx cur flag) a = readSlot s a := rfl

theorem readSlot_setFlag (s : State) (v : Bool) (a : Nat) : readSlot (setFlag s v) a = readSlot s a := rfl

theorem readSlot_advance (s : State) (e : Edge) (a : Nat) : readSlot (advance s e) a = readSlot s a := rfl

/-- A reset gives every slot its reset contents: `INIT_BUF`, or a new draw (R95). -/
theorem readSlot_resetState (s : State) (a : Nat) : readSlot (resetState s) a = unlisted s.cfg s.draws a := rfl

theorem Memory.mem_put {m : Memory} {a : Nat} {v : Byte} {x : Host.Cell} (h : x ∈ Memory.put m a v) :
    x = (a, v) ∨ x ∈ m := by
  induction m with
  | nil => simpa [Memory.put] using h
  | cons y m ih =>
    obtain ⟨b, w⟩ := y
    simp only [Memory.put] at h
    split at h
    · simpa using h
    · split at h
      · rcases List.mem_cons.1 h with h | h
        · exact .inl h
        · exact .inr (List.mem_cons_of_mem _ h)
      · rcases List.mem_cons.1 h with h | h
        · exact .inr (h ▸ List.mem_cons_self)
        · exact (ih h).imp_right (List.mem_cons_of_mem _)

theorem Memory.mem_drop {m : Memory} {a : Nat} {x : Host.Cell} (h : x ∈ Memory.drop m a) : x ∈ m := by
  induction m with
  | nil => exact h
  | cons y m ih =>
    obtain ⟨b, w⟩ := y
    simp only [Memory.drop] at h
    split at h
    · exact List.mem_cons_of_mem _ (ih h)
    · rcases List.mem_cons.1 h with h | h
      · exact h ▸ List.mem_cons_self
      · exact List.mem_cons_of_mem _ (ih h)

theorem Memory.drop_rising {m : Memory} (a : Nat) (h : m.Pairwise (fun x y => x.1 < y.1)) :
    (Memory.drop m a).Pairwise (fun x y => x.1 < y.1) := by
  induction m with
  | nil => exact .nil
  | cons y m ih =>
    obtain ⟨b, w⟩ := y
    rw [List.pairwise_cons] at h
    simp only [Memory.drop]
    split
    · exact ih h.2
    · exact List.pairwise_cons.2 ⟨fun x hx => h.1 x (Memory.mem_drop hx), ih h.2⟩

theorem Memory.put_rising {m : Memory} (a : Nat) (v : Byte) (h : m.Pairwise (fun x y => x.1 < y.1)) :
    (Memory.put m a v).Pairwise (fun x y => x.1 < y.1) := by
  induction m with
  | nil => simp [Memory.put]
  | cons y m ih =>
    obtain ⟨b, w⟩ := y
    have h' := List.pairwise_cons.1 h
    simp only [Memory.put]
    split
    · rename_i hab
      refine List.pairwise_cons.2 ⟨fun x hx => ?_, h⟩
      rcases List.mem_cons.1 hx with hx | hx
      · exact hx ▸ hab
      · exact Nat.lt_trans hab (h'.1 x hx)
    · split
      · rename_i hab; subst hab
        exact List.pairwise_cons.2 ⟨h'.1, h'.2⟩
      · refine List.pairwise_cons.2 ⟨fun x hx => ?_, ih h'.2⟩
        rcases Memory.mem_put hx with hx | hx
        · subst hx; show b < a; omega
        · exact h'.1 x hx

/-- A write to a slot of the buffer keeps the canonical form. -/
theorem Memory.write_wf {c : Config} {base : Nat} {m : Memory} {a : Nat} (v : Byte) (ha : a < c.bufCap)
    (h : Memory.wf c base m) : Memory.wf c base (Memory.write c base m a v) := by
  unfold Memory.write
  split
  · exact ⟨Memory.drop_rising a h.1, fun x hx => h.2 x (Memory.mem_drop hx)⟩
  · rename_i hv
    refine ⟨Memory.put_rising a v h.1, fun x hx => ?_⟩
    rcases Memory.mem_put hx with hx | hx
    · subst hx; exact ⟨ha, hv⟩
    · exact h.2 x hx

/-- The refresh write of an edge keeps the canonical form. -/
theorem applyWr_wf {s : State} {wr : Option Refresh} (hr : ∀ r ∈ wr, r.addr < s.cfg.bufCap)
    (h : Memory.wf s.cfg s.bufDraw s.buf) :
    Memory.wf (applyWr s wr).cfg (applyWr s wr).bufDraw (applyWr s wr).buf := by
  cases wr with
  | none => exact h
  | some r => exact Memory.write_wf _ (hr r rfl) h

/-- The byte event does not touch the buffer, so it keeps the canonical form. -/
theorem byteEvent_wf {s : State} (k : RxClass) (clr : Bool) (h : Memory.wf s.cfg s.bufDraw s.buf) :
    Memory.wf (byteEvent s k clr).cfg (byteEvent s k clr).bufDraw (byteEvent s k clr).buf := by
  unfold byteEvent; split <;> exact h

/-- After a reset nothing is listed. -/
theorem resetState_wf (s : State) :
    Memory.wf (resetState s).cfg (resetState s).bufDraw (resetState s).buf :=
  ⟨.nil, fun _ h => nomatch h⟩

end Sys2Proof.Machine
end

