-- ==== Sys2Proof/Laws/Ops.lean ====
section
/-! SUPPORT. One lemma per shared operation: everything it can do. -/

namespace Sys2Proof.Machine

theorem failed_of_wf {c : Config} (h : c.wf = true) : c.failed = none := by
  simpa [Config.wf] using h

/-- A well-formed configuration meets the four conditions of R5. -/
theorem conditions_of_wf {c : Config} (h : c.wf = true) :
    (1 ≤ c.bufCap ∧ c.bufCap ≤ 256) ∧ c.valCount ≤ c.bufCap ∧ (∀ i < c.valCount, (c.initSlot i).isSome = true) ∧
      1 ≤ c.frameBody := by
  have h := failed_of_wf h
  unfold Config.failed at h
  split at h; · cases h
  split at h; · cases h
  split at h; · cases h
  split at h; · cases h
  simp only [not_not] at *
  exact ⟨‹_›, ‹_›, ‹_›, ‹_›⟩

/-- `guardEdge` answers a next state exactly where nothing refuses the edge, and then the state it was given. -/
theorem guardEdge_next_iff {s t t' : State} {wr : Option Refresh} :
    guardEdge s wr t = .next t' ↔ Accepts s wr ∧ t' = t := by
  unfold guardEdge Accepts Config.wf
  cases hc : s.cfg.failed with
  | some c => simp
  | none =>
    cases wr with
    | none => simpa using eq_comm
    | some r =>
      by_cases hp : s.cfg.hasRefresh = false
      · simp [hp]
      · by_cases ha : s.cfg.bufCap ≤ r.addr
        · simp [hp, ha]
        · simpa [hp, ha, Nat.lt_of_not_le ha] using eq_comm

/-- `guardEdge` never faults (R82). -/
theorem guardEdge_not_fault {s t : State} {wr : Option Refresh} {r : Fault} : guardEdge s wr t ≠ .fault r := by
  unfold guardEdge; split <;> (try split) <;> (try split) <;> (try split) <;> exact nofun

/-- An edge samples an exchange's own event exactly where `rx_valid` is set and the event is no extra one (R46, R93). -/
theorem ownEvent_iff {c : Config} {e : Edge} :
    ownEvent c e = true ↔ (unpack c e.cyc).rxValid = true ∧ e.extra = false := by
  simp [ownEvent]

/-- A load is late exactly where an exchange begun before is still owed its event (R98). -/
theorem late_iff {s : State} {e : Edge} : late s e = true ↔ e.load = true ∧ s.owed = true ∧ e.dropped = false := by
  simp [late, and_assoc]

/-- Where nothing is owed, no load is late. -/
theorem late_of_not_owed {s : State} (h : s.owed = false) (e : Edge) : late s e = false := by
  simp [late, h]

/-- After an edge an exchange is owed its event exactly where one was begun there or is still under way, and the edge
does not sample its own event (R47, R98). -/
theorem advance_owed_iff {s : State} {e : Edge} :
    (advance s e).owed = true ↔
      (e.load = true ∨ (s.owed = true ∧ e.dropped = false)) ∧ ownEvent s.cfg e = false := by
  simp

/-- The end of an edge answers a next state exactly where the instruction did and no load was late. -/
theorem finishEdge_next_iff {s u : State} {o : Host.Outcome State Fault Refusal} :
    finishEdge s o = .next u ↔ ∃ t, o = .next t ∧ late s (edgeIn s) = false ∧ u = advance t (edgeIn s) := by
  cases o with
  | next t => cases h : late s (edgeIn s) <;> simp [finishEdge, h, eq_comm (b := u)]
  | fault r => simp [finishEdge]
  | refused r => simp [finishEdge]

/-- A fetch answers an instruction exactly where the configuration is well formed and the word decodes. -/
theorem fetch_ok_iff {s : State} {i : Instr} :
    fetch s = .ok i ↔ s.cfg.wf = true ∧ decode s.cfg (live s) (edgeIn s).cyc = .ok i := by
  unfold fetch Config.wf
  cases hc : s.cfg.failed with
  | some c => simp
  | none =>
    cases hd : decode s.cfg (live s) (edgeIn s).cyc with
    | ok j => simp
    | error e => cases e; simp

/-- Everything a step that answers a next state can do: it fetched an instruction, the instruction answered, no load was
late, and the environment moved on. -/
theorem step_next_iff {s u : State} :
    step s = .next u ↔ ∃ i t, fetch s = .ok i ∧ exec i s = .next t ∧ late s (edgeIn s) = false ∧
      u = advance t (edgeIn s) := by
  unfold step
  cases h : fetch s with
  | error r => simp
  | ok i => simp [finishEdge_next_iff]

theorem decode_ok_iff {c : Config} {b : Bool} {w : CycWord} {i : Instr} :
    decode c b w = .ok i ↔ w.toNat < 2 ^ cycWidth c ∧ i = classify c b (unpack c w) := by
  unfold decode; split <;> simp [*, eq_comm (b := i)]

/-- The refresh write of an edge changes the buffer only. -/
theorem applyWr_fields (s : State) (wr : Option Refresh) :
    (applyWr s wr).cursor = s.cursor ∧ (applyWr s wr).txReg = s.txReg ∧ (applyWr s wr).rxFlag = s.rxFlag ∧
      SameOutside s (applyWr s wr) := by
  cases wr <;> exact ⟨rfl, rfl, rfl, rfl, rfl, rfl, rfl, rfl, rfl, rfl⟩

/-- What each slot holds after the refresh write of an edge. -/
theorem readSlot_applyWr (s : State) (wr : Option Refresh) (a : Nat) :
    readSlot (applyWr s wr) a = slotAfter s wr a := by
  cases wr with
  | none => rfl
  | some r =>
    by_cases h : a = r.addr
    · subst h; simp [applyWr, slotAfter, readSlot_writeSlot_same]
    · simp [applyWr, slotAfter, h, readSlot_writeSlot_other _ _ h]

/-- A byte event writes the three registers and nothing else (R53, R55, R56). -/
theorem byteEvent_fields (s : State) (k : RxClass) (clr : Bool) :
    (byteEvent s k clr).cursor =
        (if cursorFrom s k < s.cfg.valCount then cursorFrom s k + 1 else cursorFrom s k) ∧
      (byteEvent s k clr).txReg =
        (if cursorFrom s k < s.cfg.valCount then readSlot s (cursorFrom s k) else s.cfg.pad) ∧
      (byteEvent s k clr).rxFlag = true ∧ (byteEvent s k clr).buf = s.buf ∧ SameOutside s (byteEvent s k clr) := by
  unfold byteEvent
  split <;> exact ⟨rfl, rfl, rfl, rfl, rfl, rfl, rfl, rfl, rfl, rfl, rfl⟩

theorem readSlot_byteEvent (s : State) (k : RxClass) (clr : Bool) (a : Nat) :
    readSlot (byteEvent s k clr) a = readSlot s a := by
  unfold byteEvent; split <;> rfl

end Sys2Proof.Machine
end

