-- ==== Sys2Proof/Laws/PerInstr.lean ====
section
/-! SUPPORT. Statements about every instruction, constructor by constructor. -/

namespace Sys2Proof.Laws.EncodeWidth

/-- The encoding of a well-formed instruction is a CYC word: it has no bit beyond `20 + ADDR_W` (R42). -/
def Statement (i : Instr) : Prop :=
  ∀ c : Config, c.wf = true → i.wf c = true → (encode c i).toNat < 2 ^ cycWidth c

theorem reset (wr : Option Refresh) : Statement (.reset wr) := fun _ hc h => toNat_pack_lt hc (waddr_fields h)

theorem resync (clr : Bool) (wr : Option Refresh) : Statement (.resync clr wr) :=
  fun _ hc h => toNat_pack_lt hc (waddr_fields h)

theorem advanceEmit (rx : Byte) (clr : Bool) (wr : Option Refresh) : Statement (.advanceEmit rx clr wr) :=
  fun _ hc h => toNat_pack_lt hc (waddr_fields h)

theorem advancePad (rx : Byte) (clr : Bool) (wr : Option Refresh) : Statement (.advancePad rx clr wr) :=
  fun _ hc h => toNat_pack_lt hc (waddr_fields h)

theorem flagClr (wr : Option Refresh) : Statement (.flagClr wr) := fun _ hc h => toNat_pack_lt hc (waddr_fields h)

theorem bufWr (wr : Refresh) : Statement (.bufWr wr) := fun _ hc h => toNat_pack_lt hc (waddr_fields h)

theorem idle : Statement .idle := fun _ hc h => toNat_pack_lt hc (waddr_fields h)

end Sys2Proof.Laws.EncodeWidth
end

