-- ==== Sys2Proof/Tests/Slice0.lean ====
section
/-! SUPPORT. The model's own tests. Expected results are those of spec/95_test_vectors.md and of the rules it cites; the
witnesses show that the hypotheses of the obligations can be met together, at the boundaries of their ranges. -/

namespace Sys2Proof.Tests
open Sys2Proof Sys2Proof.Machine

/-! Helpers. -/

/-- The reference configuration with the refresh port. -/
def refreshCfg : Config := { Config.reference with hasRefresh := true }

/-- A capacity that is no power of two (HO-8): indices 12 to 15 fit the port and not the buffer. -/
def oddCfg : Config := { refreshCfg with bufCap := 12 }

/-- `VAL_COUNT = 0` (BE-11). -/
def emptyCfg : Config := { Config.reference with valCount := 0, initBuf := [] }

/-- `MAGIC = 0x00` (BE-16). -/
def zeroMagicCfg : Config := { Config.reference with magic := 0 }

/-- `VAL_COUNT = BUF_CAP = 16` (BE-15), every slot 0x3C. -/
def fullCfg : Config := { refreshCfg with valCount := 16, initBuf := List.replicate 16 (some 0x3C) }

/-- A configuration that is not well formed (FL-2). -/
def badCfg : Config := { Config.reference with valCount := 17 }

/-- A state of a test: the buffer at its reset contents. -/
def st (c : Config) (cur : Nat) (tx : Byte) (flag : Bool) : State :=
  { State.resetFor c with cursor := cur, txReg := tx, rxFlag := flag }

/-- A state whose next edge carries a CYC word. -/
def at_ (s : State) (w : CycWord) : State := { s with inputs := [{ cyc := w }] }

def nextOf (o : Host.Outcome State Fault Refusal) : Option State :=
  match o with
  | .next t => some t
  | .fault _ => none
  | .refused _ => none

def refusalOf (o : Host.Outcome State Fault Refusal) : Option Refusal :=
  match o with
  | .next _ => none
  | .fault _ => none
  | .refused r => some r

def faultOf (o : Host.Outcome State Fault Refusal) : Option Fault :=
  match o with
  | .next _ => none
  | .fault r => some r
  | .refused _ => none

/-- Cursor, `tx_reg` and flag after a step, the columns of the spec's vectors. -/
def regs (o : Host.Outcome State Fault Refusal) : Option (Nat × Byte × Bool) :=
  (nextOf o).map fun t => (t.cursor, t.txReg, t.rxFlag)

/-! WellFormed: an ill-formed term for each check. -/

theorem test_wf_reference : Config.reference.wf = true := by decide
theorem test_wf_variants :
    refreshCfg.wf = true ∧ oddCfg.wf = true ∧ emptyCfg.wf = true ∧ zeroMagicCfg.wf = true ∧ fullCfg.wf = true := by decide
theorem test_wf_refuses_capacity_zero :
    { Config.reference with bufCap := 0 }.failed = some .bufCapRange := by decide
theorem test_wf_refuses_capacity_257 :
    { Config.reference with bufCap := 257 }.failed = some .bufCapRange := by decide
/-- FL-2. -/
theorem test_wf_refuses_count_above_capacity : badCfg.failed = some .valCountRange := by decide
/-- FL-3. -/
theorem test_wf_refuses_unspecified_live_slot :
    { Config.reference with initBuf := [some 1, some 2, some 3, none, some 5] }.failed = some .liveSlotsSpecified := by
  decide
theorem test_wf_refuses_empty_frame :
    { Config.reference with frameBody := 0 }.failed = some .frameBodyPositive := by decide
theorem test_wf_refuses_wide_index : (Instr.bufWr ⟨16, 0⟩).wf refreshCfg = false := by decide
theorem test_wf_refuses_wide_index_beside :
    (Instr.reset (some ⟨16, 0⟩)).wf refreshCfg = false ∧ (Instr.resync false (some ⟨16, 0⟩)).wf refreshCfg = false ∧
      (Instr.flagClr (some ⟨16, 0⟩)).wf refreshCfg = false := by decide
theorem test_wf_refuses_magic_advance :
    (Instr.advanceEmit 0xF0 false none).wf Config.reference = false ∧
      (Instr.advancePad 0xF0 false none).wf Config.reference = false := by decide
/-- R4: `ADDR_W` and `CUR_W`, also at the ends of the range of `BUF_CAP`. -/
theorem test_widths :
    (Config.reference.addrW, Config.reference.curW) = (4, 5) ∧ oddCfg.addrW = 4 ∧
      ({ Config.reference with bufCap := 1 }.addrW, { Config.reference with bufCap := 1 }.curW) = (1, 1) ∧
      ({ Config.reference with bufCap := 256 }.addrW, { Config.reference with bufCap := 256 }.curW) = (8, 9) := by decide

/-! Decoding: words of 95_test_vectors.md section 2.1, written out from R42. -/

theorem test_decode_reset : decode Config.reference true 0x0000800#28 = .ok (.reset none) := by rfl
theorem test_decode_reset_beats_event : decode Config.reference true 0x00009F0#28 = .ok (.reset none) := by rfl
theorem test_decode_resync : decode Config.reference true 0x00001F0#28 = .ok (.resync false none) := by rfl
theorem test_decode_emit : decode Config.reference true 0x0000170#28 = .ok (.advanceEmit 0x70 false none) := by rfl
theorem test_decode_pad : decode Config.reference false 0x00001FF#28 = .ok (.advancePad 0xFF false none) := by rfl
theorem test_decode_event_and_clear : decode Config.reference true 0x0000300#28 = .ok (.advanceEmit 0 true none) := by rfl
theorem test_decode_clear : decode Config.reference true 0x0000200#28 = .ok (.flagClr none) := by rfl
/-- DEC-15. -/
theorem test_decode_write : decode refreshCfg true 0x0AB2400#28 = .ok (.bufWr ⟨2, 0xAB⟩) := by rfl
/-- HO-5. -/
theorem test_decode_event_and_write :
    decode refreshCfg true 0x0AB2500#28 = .ok (.advanceEmit 0 false (some ⟨2, 0xAB⟩)) := by rfl
/-- DEC-10: `rx_byte` is ignored without `rx_valid`. -/
theorem test_decode_idle : decode Config.reference true 0x00000F0#28 = .ok .idle := by rfl
/-- R42: bit 24 is no bit of the reference CYC word. -/
theorem test_decode_refuses_bit_24 : decode Config.reference true 0x1000000#28 = .error .beyondWidth := by rfl
/-- R42: in a configuration of 256 slots the index is 8 bits wide and the data lies above it. -/
theorem test_decode_wide_index :
    decode { refreshCfg with bufCap := 256 } true 0xABFF400#28 = .ok (.bufWr ⟨255, 0xAB⟩) := by rfl
theorem test_encode_write : encode refreshCfg (.bufWr ⟨9, 0x77⟩) = 0x0779400#28 := by decide
theorem test_table_words :
    decodeTableWord 16 0x0800 = some (.reset none) ∧ decodeTableWord 16 0x01F0 = some (.resync false none) ∧
      decodeTableWord 16 0x0100 = some (.advanceEmit 0 false none) ∧ decodeTableWord 16 0x0200 = some (.flagClr none) ∧
      decodeTableWord 16 0x0400 = some (.bufWr ⟨0, 0⟩) ∧ decodeTableWord 16 0 = some .idle :=
  ⟨rfl, rfl, rfl, rfl, rfl, rfl⟩

/-! The instructions, one step each. -/

/-- BE-2. -/
theorem test_resync_mid_stream :
    regs (exec (.resync false none) (st Config.reference 3 0x15 true)) = some (1, 0x59, true) := by decide
/-- BE-11. -/
theorem test_resync_empty_payload :
    regs (exec (.resync false none) (st emptyCfg 0 0xAA false)) = some (0, 0x00, true) := by decide
/-- BE-7: the last live byte. -/
theorem test_emit_last_live_byte :
    regs (exec (.advanceEmit 0x00 false none) (st Config.reference 4 0x15 true)) = some (5, 0x14, true) := by decide
/-- BE-15: the cursor reaches 16. -/
theorem test_emit_reaches_capacity :
    regs (exec (.advanceEmit 0x00 false none) (st fullCfg 15 0 true)) = some (16, 0x3C, true) := by decide
/-- BE-14: another pad byte. -/
theorem test_pad_emits_pad :
    regs (exec (.advancePad 0x00 false none) (st { Config.reference with pad := 0xEE } 5 0x14 true)) =
      some (5, 0xEE, true) := by decide
/-- HO-3: the set beats the clear. -/
theorem test_pad_set_beats_clear :
    regs (exec (.advancePad 0xFF true none) (st Config.reference 5 0x00 false)) = some (5, 0x00, true) := by decide
/-- HO-1. -/
theorem test_clear :
    regs (exec (.flagClr none) (st Config.reference 2 0x43 true)) = some (2, 0x43, false) := by decide
theorem test_clear_with_write :
    (nextOf (exec (.flagClr (some ⟨0, 0x20⟩)) (st refreshCfg 2 0x43 true))).map (fun t => (t.rxFlag, readSlot t 0)) =
      some (false, 0x20) := by decide
/-- R69 example, and that writing the reset contents back unlists the slot. -/
theorem test_write_and_write_back :
    (nextOf (exec (.bufWr ⟨0, 0x20⟩) (st refreshCfg 2 0x43 true))).map (fun t => (t.buf, readSlot t 0, readSlot t 1)) =
      some ([(0, 0x20)], 0x20, 0x43) ∧
    (writeSlot (writeSlot (st refreshCfg 0 0 false) 0 0x20) 0 0x59).buf = [] := by decide
/-- HO-8 and HO-9. -/
theorem test_write_refusals :
    refusalOf (exec (.bufWr ⟨13, 1⟩) (st oddCfg 0 0 false)) = some (.addrOutOfRange 0 13) ∧
      refusalOf (exec (.bufWr ⟨0, 1⟩) (st Config.reference 0 0 false)) = some (.portAbsent 0) := by decide
/-- HO-4. -/
theorem test_idle : regs (exec .idle (st Config.reference 2 0x43 true)) = some (2, 0x43, true) := by decide
/-- RS-3 and RS-4: a reset drops refreshed contents and the write of its own edge. -/
theorem test_reset_drops_refresh :
    (nextOf (exec (.reset (some ⟨0, 0x20⟩)) (writeSlot (st refreshCfg 3 0x16 true) 0 0x33))).map
      (fun t => (t.cursor, t.rxFlag, readSlot t 0)) = some (0, false, 0x59) := by decide
/-- DEC-13: the refusal is checked before the reset. -/
theorem test_reset_refused_without_port :
    refusalOf (exec (.reset (some ⟨0, 0x20⟩)) (st Config.reference 3 0x16 true)) = some (.portAbsent 0) := by decide

/-! The step. -/

/-- HO-5: the old byte is read, and the write stands after the edge. -/
theorem test_step_reads_old :
    (nextOf (step (at_ (st refreshCfg 2 0x43 true) 0x0AB2500#28))).map
      (fun t => (t.cursor, t.txReg, readSlot t 2, t.inputs.length, t.edges)) = some (3, 0x16, 0xAB, 0, 1) := by decide
/-- The word of a table row runs as the first instruction after reset. -/
theorem test_step_first_after_reset :
    (nextOf (step (State.reset.withFetchWord 16 0x01F0))).map (fun t => (t.cursor, t.txReg, t.rxFlag)) =
      some (1, 0x59, true) := by decide
theorem test_step_refuses_bad_configuration :
    refusalOf (step (at_ (st badCfg 0 0 false) 0x0000100#28)) = some (.configRefused .valCountRange) := by decide
theorem test_step_refuses_no_cyc_word :
    refusalOf (step (at_ (st Config.reference 0 0 false) 0x1000000#28)) = some (.notCycWord 0) := by decide
/-- FL-1: the load of exchange 3 at the edge of exchange 2's event. -/
theorem test_step_deadline_missed :
    faultOf (step { st Config.reference 2 0x43 true with
      inputs := [{ cyc := 0x0000100#28, load := true }], loaded := 2, owed := true }) = some (.deadlineMissed 3) := by decide
/-- R98: the same load one edge after the event is in time. -/
theorem test_step_load_in_time :
    (nextOf (step { st Config.reference 2 0x43 true with
      inputs := [{ cyc := 0x0000000#28, load := true }], loaded := 2, owed := false })).map
      (fun t => (t.loaded, t.owed, t.txReg)) = some (3, true, 0x43) := by decide
/-- P1, edge 2: an exchange on the line after another sends the byte before it, and owes nothing after it. -/
theorem test_step_exchange_on_consecutive_line :
    let s := { st Config.reference 1 0x59 true with inputs := [lineEdge Config.reference [.exch 0x00]], loaded := 1 }
    (observe 1 s).sent = [0x59] ∧
      (nextOf (step s)).map (fun t => (t.cursor, t.txReg, t.loaded, t.owed)) = some (2, 0x43, 2, false) := by decide
/-- R93, R99: an extra event inside exchange 2 moves the cursor (R61) and leaves its own event owed. -/
theorem test_step_extra_event_settles_nothing :
    (nextOf (step { st Config.reference 2 0x43 true with
      inputs := [{ cyc := 0x0000100#28, extra := true }], loaded := 2, owed := true })).map
      (fun t => (t.cursor, t.txReg, t.owed)) = some (3, 0x16, true) := by decide
/-- R49: trace lines and their words. -/
theorem test_trace_lines :
    (lineEdge refreshCfg [.exch 0x00, .wr 2 0x99]).cyc = 0x0992500#28 ∧ (lineEdge refreshCfg [.exch 0x00, .rst]).cyc = 0x0000900#28 ∧
      (lineEdge refreshCfg [.clr]).cyc = 0x0000200#28 ∧ frameLines Config.reference =
        [[.exch 0xF0], [.exch 0], [.exch 0], [.exch 0], [.exch 0], [.exch 0]] := by decide
/-- L1-1: the captured bytes of the source's end-to-end scenario, in the transaction view. -/
theorem test_frame_captures_payload :
    captured (misoOf (st Config.reference 0 0xAA false) (initiatorSends Config.reference)) =
      [0x59, 0x43, 0x16, 0x15, 0x14] := by decide

/-! Witnesses: the hypotheses of the obligations, met together. -/

/-- The edges of an exchange: a clear, the load, an idle edge, the event (R46, R47). -/
def exchangeOf (rx : Byte) : ExchangeEdges where
  before := [{ cyc := 0x0000200#28 }]
  start := some { cyc := 0#28, load := true }
  during := [{ cyc := 0#28 }]
  valid := { lineEdge Config.reference [.exch rx] with load := false }

/-- The edge of an exchange whose load falls on the edge of its event, as on a trace line (P1). -/
def lineExchange (rx : Byte) : ExchangeEdges where
  valid := lineEdge Config.reference [.exch rx]

/-- A state whose schedule is some exchanges. -/
def carrying (xs : List ExchangeEdges) : State := { st Config.reference 2 0x43 true with inputs := allEdges xs ++ [] }

/-- The edges of one reference frame. -/
def frameEdges : List ExchangeEdges := (initiatorSends Config.reference).map exchangeOf

theorem carries_exchangeOf_magic : Carries Config.reference 0xF0 (exchangeOf 0xF0) := by decide
theorem carries_exchangeOf_zero : Carries Config.reference 0x00 (exchangeOf 0x00) := by decide

/-- Both forms of an exchange are admitted: the load before the event's edge, and at it (P1). -/
theorem carries_lineExchange : Carries Config.reference 0x00 (lineExchange 0x00) ∧
    allEdges [lineExchange 0xF0, lineExchange 0x00] =
      [lineEdge Config.reference [.exch 0xF0], lineEdge Config.reference [.exch 0x00]] := by decide

theorem frameEdges_carry : List.Forall₂ (Carries Config.reference) (initiatorSends Config.reference) frameEdges :=
  .cons carries_exchangeOf_magic (.cons carries_exchangeOf_zero (.cons carries_exchangeOf_zero
    (.cons carries_exchangeOf_zero (.cons carries_exchangeOf_zero (.cons carries_exchangeOf_zero .nil)))))

theorem witness_StepRunsDecodedInstruction :
    (at_ State.reset 0x00001F0#28).cfg.wf = true ∧
      decode Config.reference (live State.reset) (edgeIn (at_ State.reset 0x00001F0#28)).cyc = .ok (.resync false none) ∧
      late (at_ State.reset 0x00001F0#28) (edgeIn (at_ State.reset 0x00001F0#28)) = false ∧
      (nextOf (exec (.resync false none) (at_ State.reset 0x00001F0#28))).isSome = true ∧
      refusalOf (exec (.bufWr ⟨0, 0⟩) (at_ State.reset 0x0000400#28)) = some (.portAbsent 0) :=
  ⟨by decide, rfl, by decide, by decide, by decide⟩

theorem witness_DecodeOfEncode :
    fullCfg.wf = true ∧ (Instr.bufWr ⟨15, 0xFF⟩).wf fullCfg = true ∧ (Instr.bufWr ⟨15, 0xFF⟩).caseOk true = true ∧
      (Instr.advanceEmit 0x00 true (some ⟨0, 0⟩)).wf fullCfg = true ∧
      (Instr.advancePad 0xFF true none).wf fullCfg = true ∧ (Instr.advancePad 0xFF true none).caseOk false = true := by decide

theorem witness_EveryCycWordDecodes :
    Config.reference.wf = true ∧ (0x0FFFFFF#28).toNat < 2 ^ cycWidth Config.reference ∧
      2 ^ cycWidth Config.reference ≤ (0x1000000#28).toNat := by decide

/-- Both clauses: an ignored `rx_byte` (DEC-10 and IDLE), and ignored write fields. -/
theorem witness_IgnoredInputsChangeNothing :
    (0x00000F0#28).toNat < 2 ^ cycWidth Config.reference ∧ (0#28).toNat < 2 ^ cycWidth Config.reference ∧
      (unpack Config.reference 0#28).rxValid = false ∧
      unpack Config.reference 0x00000F0#28 = { unpack Config.reference 0#28 with rxByte := 0xF0 } ∧
      (unpack Config.reference 0#28).bufWe = false ∧
      unpack Config.reference 0x0AB2000#28 = { unpack Config.reference 0#28 with bufWaddr := 2, bufWdata := 0xAB } := by decide

theorem witness_EdgeFunctionRefinement :
    (at_ State.reset 0x0000900#28).cfg.wf = true ∧
      (edgeIn (at_ State.reset 0x0000900#28)).cyc.toNat < 2 ^ cycWidth Config.reference := by decide

/-- A configuration on each side, at both ends of the range of `BUF_CAP`, and the empty payload. -/
theorem witness_IllFormedConfigurationRefused :
    (st badCfg 0 0 false).cfg.wf = false ∧ { Config.reference with bufCap := 256 }.wf = true ∧
      { emptyCfg with bufCap := 1 }.wf = true ∧ (st emptyCfg 0 0 false).cfg.valCount = 0 := by decide

theorem witness_ConfigurationNeverChanges :
    (nextOf (step (at_ State.reset 0x0000800#28))).isSome = true := by decide

theorem witness_RefreshWriteRefusals :
    Config.reference.wf = true ∧ Config.reference.hasRefresh = false ∧ oddCfg.wf = true ∧ oddCfg.hasRefresh = true ∧
      oddCfg.bufCap ≤ (unpack oddCfg 0x001C400#28).bufWaddr ∧ (unpack oddCfg 0x001C400#28).bufWe = true := by decide

/-- The last slot of the buffer is accepted. -/
theorem witness_EveryLegalEdgeCompletes :
    Accepts (at_ (st oddCfg 0 0 false) 0x001B400#28) (refreshOf (fieldsIn (at_ (st oddCfg 0 0 false) 0x001B400#28))) ∧
      (fieldsIn (at_ (st oddCfg 0 0 false) 0x001B400#28)).bufWaddr = 11 ∧
      (edgeIn (at_ (st oddCfg 0 0 false) 0x001B400#28)).cyc.toNat < 2 ^ cycWidth oddCfg ∧
      late (at_ (st oddCfg 0 0 false) 0x001B400#28) (edgeIn (at_ (st oddCfg 0 0 false) 0x001B400#28)) = false := by decide

/-- A step refused for each reason. -/
theorem witness_RefusalsHaveTheirReasons :
    refusalOf (step (at_ (st badCfg 0 0 false) 0#28)) = some (.configRefused .valCountRange) ∧
      refusalOf (step (at_ (st Config.reference 0 0 false) 0x0000400#28)) = some (.portAbsent 0) ∧
      refusalOf (step (at_ (st oddCfg 0 0 false) 0x001C400#28)) = some (.addrOutOfRange 0 12) ∧
      refusalOf (step (at_ (st oddCfg 0 0 false) 0x1000000#28)) = some (.notCycWord 0) := by decide

/-- With and without a live byte, without a write and with one to the last slot. -/
theorem witness_ResyncResult :
    Accepts (st refreshCfg 3 0x15 true) (some ⟨15, 1⟩) ∧ 0 < refreshCfg.valCount ∧
      Accepts (st emptyCfg 0 0 false) none ∧ emptyCfg.valCount = 0 ∧ (unpack refreshCfg 0x00001F0#28).rst = false ∧
      (unpack refreshCfg 0x00001F0#28).rxValid = true ∧ (unpack refreshCfg 0x00001F0#28).rxByte = refreshCfg.magic := by decide

theorem witness_AdvanceEmitResult :
    Accepts (st refreshCfg 4 0x15 true) (some ⟨15, 1⟩) ∧ (st refreshCfg 4 0x15 true).cursor < refreshCfg.valCount ∧
      (unpack refreshCfg 0x00001F1#28).rst = false ∧ (unpack refreshCfg 0x00001F1#28).rxValid = true ∧
      (unpack refreshCfg 0x00001F1#28).rxByte ≠ refreshCfg.magic := by decide

theorem witness_AdvancePadResult :
    Accepts (st refreshCfg 5 0x14 true) (some ⟨15, 1⟩) ∧ refreshCfg.valCount ≤ (st refreshCfg 5 0x14 true).cursor ∧
      (unpack refreshCfg 0x00001F1#28).rst = false ∧ (unpack refreshCfg 0x00001F1#28).rxValid = true ∧
      (unpack refreshCfg 0x00001F1#28).rxByte ≠ refreshCfg.magic := by decide

/-- Alone on its edge, and at the edge of a byte event. -/
theorem witness_FlagClearResult :
    (unpack refreshCfg 0x0000200#28).rst = false ∧ (unpack refreshCfg 0x0000200#28).rxValid = false ∧
      (unpack refreshCfg 0x0000200#28).flagClr = true ∧ Accepts (st refreshCfg 0 0 true) (some ⟨0, 1⟩) ∧
      Accepts (st refreshCfg 0 0 true) (refreshOf (unpack refreshCfg 0x0000300#28)) ∧
      (unpack refreshCfg 0x0000300#28).rst = false ∧ (unpack refreshCfg 0x0000300#28).rxValid = true ∧
      (unpack refreshCfg 0x0000300#28).flagClr = true := by decide

theorem witness_BufWriteResult :
    Accepts (st oddCfg 0 0 true) (some ⟨11, 1⟩) ∧ (unpack oddCfg 0x001B400#28).rst = false ∧
      (unpack oddCfg 0x001B400#28).rxValid = false ∧ (unpack oddCfg 0x001B400#28).flagClr = false ∧
      (unpack oddCfg 0x001B400#28).bufWe = true := by decide

theorem witness_IdleResult :
    (st Config.reference 2 0x43 true).cfg.wf = true ∧ (unpack Config.reference 0x00000F0#28).rst = false ∧
      (unpack Config.reference 0x00000F0#28).rxValid = false ∧ (unpack Config.reference 0x00000F0#28).flagClr = false ∧
      (unpack Config.reference 0x00000F0#28).bufWe = false := by decide

/-- A specified slot (4) and the first and last unspecified ones (5, 15). -/
theorem witness_ResetResult :
    Accepts (st refreshCfg 3 0x16 true) (some ⟨0, 0x20⟩) ∧ (unpack refreshCfg 0x0200C00#28).rst = true ∧
      refreshCfg.initSlot 4 = some 0x14 ∧ refreshCfg.initSlot 5 = none ∧ refreshCfg.initSlot 15 = none := by decide

/-- Each clause: refused without the port and out of range, reset, RESYNC, ADVANCE, no byte event. -/
theorem witness_EventPriority :
    Config.reference.wf = true ∧ Config.reference.hasRefresh = false ∧
      oddCfg.bufCap ≤ (unpack oddCfg 0x001C400#28).bufWaddr ∧ (unpack oddCfg 0x001C400#28).bufWe = true ∧
      Accepts (st refreshCfg 2 0 true) (refreshOf (unpack refreshCfg 0x0200FF0#28)) ∧ (unpack refreshCfg 0x0200FF0#28).rst = true ∧
      Accepts (st refreshCfg 2 0 true) (refreshOf (unpack refreshCfg 0x02007F0#28)) ∧ (unpack refreshCfg 0x02007F0#28).rst = false ∧
      (unpack refreshCfg 0x02007F0#28).rxValid = true ∧ (unpack refreshCfg 0x02007F0#28).rxByte = refreshCfg.magic ∧
      (unpack refreshCfg 0x02007F1#28).rxByte ≠ refreshCfg.magic ∧ (unpack refreshCfg 0x0200600#28).rxValid = false := by decide

theorem witness_CursorWrittenOnlyByEventsAndReset :
    (nextOf (step (at_ (st refreshCfg 2 0x43 true) 0x0200600#28))).isSome = true ∧
      (fieldsIn (at_ (st refreshCfg 2 0x43 true) 0x0200600#28)).rst = false ∧
      (fieldsIn (at_ (st refreshCfg 2 0x43 true) 0x0200600#28)).rxValid = false := by decide

/-- A step on each side: a reset, a byte event with a clear, a clear alone. -/
theorem witness_FlagAfterEveryStep :
    (nextOf (step (at_ (st refreshCfg 2 0x43 true) 0x0000900#28))).map State.rxFlag = some false ∧
      (nextOf (step (at_ (st refreshCfg 2 0x43 true) 0x0000300#28))).map State.rxFlag = some true ∧
      (nextOf (step (at_ (st refreshCfg 2 0x43 true) 0x0000200#28))).map State.rxFlag = some false := by decide

theorem witness_BufferAfterEveryStep :
    (nextOf (step (at_ (st refreshCfg 2 0x43 true) 0x0200C00#28))).isSome = true ∧
      (fieldsIn (at_ (st refreshCfg 2 0x43 true) 0x0200C00#28)).rst = true ∧ refreshCfg.initSlot 0 = some 0x59 ∧
      (nextOf (step (at_ (st refreshCfg 2 0x43 true) 0x0200400#28))).isSome = true ∧
      (fieldsIn (at_ (st refreshCfg 2 0x43 true) 0x0200400#28)).rst = false := by decide

theorem witness_SameEdgeReadIsOld :
    Accepts (st refreshCfg 4 0x43 true) (refreshOf (unpack refreshCfg 0x0AB4500#28)) ∧
      (unpack refreshCfg 0x0AB4500#28).rst = false ∧ (unpack refreshCfg 0x0AB4500#28).rxValid = true ∧
      (unpack refreshCfg 0x0AB4500#28).bufWe = true ∧
      (unpack refreshCfg 0x0AB4500#28).bufWaddr =
        cursorFrom (st refreshCfg 4 0x43 true) (rxClass refreshCfg (unpack refreshCfg 0x0AB4500#28).rxByte) ∧
      (unpack refreshCfg 0x0AB4500#28).bufWaddr < refreshCfg.valCount := by decide

/-- Each clause: the edge of a write, an edge that writes another slot, an edge whose event reads the slot. -/
theorem witness_RefreshSeenByLaterEvents :
    (nextOf (step (at_ (st refreshCfg 2 0x43 true) 0x0AB4400#28))).isSome = true ∧
      (fieldsIn (at_ (st refreshCfg 2 0x43 true) 0x0AB4400#28)).bufWe = true ∧
      ¬ ((fieldsIn (at_ (st refreshCfg 2 0x43 true) 0x0AB4400#28)).bufWe = true ∧
        (fieldsIn (at_ (st refreshCfg 2 0x43 true) 0x0AB4400#28)).bufWaddr = 3) ∧
      (nextOf (step (at_ (st refreshCfg 4 0x43 true) 0x0000100#28))).isSome = true ∧
      4 = cursorFrom (st refreshCfg 4 0x43 true) (rxClass refreshCfg (fieldsIn (at_ (st refreshCfg 4 0x43 true) 0x0000100#28)).rxByte) ∧
      4 < refreshCfg.valCount := by decide

theorem witness_EqualContentsAreEqualData : Memory.wf refreshCfg 0 [(0, 0x20), (4, 0x00)] ∧ Memory.wf refreshCfg 0 [] := by
  decide

/-- The invariant at its two ends: cursor 0, and cursor `VAL_COUNT` with a listed slot. -/
theorem witness_StateInv :
    StateInv (st refreshCfg 0 0 false) ∧ StateInv { st fullCfg 16 0 true with buf := [(0, 0x20), (15, 0x21)] } := by decide

/-- A step that meets the invariant and answers a next state. -/
theorem witness_StepKeepsInvariant :
    StateInv (at_ (st fullCfg 15 0 true) 0x0000100#28) ∧
      (nextOf (step (at_ (st fullCfg 15 0 true) 0x0000100#28))).isSome = true := by decide

theorem witness_CursorFitsItsRegister :
    StateInv (st fullCfg 16 0 true) ∧ cursorFrom (st fullCfg 16 0 true) .resync < fullCfg.valCount ∧
      cursorFrom (st fullCfg 15 0 true) .advance < fullCfg.valCount := by decide

theorem witness_ResetMeetsInvariant : oddCfg.wf = true ∧ emptyCfg.wf = true := by decide

theorem witness_CursorBoundedInReachableStates :
    Config.reference.wf = true ∧ Reachable Config.reference { State.resetFor Config.reference with inputs := [] } :=
  ⟨by decide, .start []⟩

theorem witness_AdvanceIgnoresItsByte :
    (unpack Config.reference 0x00001F1#28).rst = false ∧ (unpack Config.reference 0x00001F1#28).rxValid = true ∧
      (unpack Config.reference 0x00001F1#28).rxByte ≠ Config.reference.magic ∧ (0x00 : Byte) ≠ Config.reference.magic := by
  decide

theorem witness_ResyncIsIdempotent :
    (st Config.reference 3 0x15 true).cfg.wf = true ∧ 0 < Config.reference.valCount ∧ emptyCfg.wf = true ∧
      emptyCfg.valCount = 0 := by decide

theorem witness_ExhaustionAbsorbsAdvances :
    (st Config.reference 5 0x14 true).cursor = Config.reference.valCount ∧
      ∀ x ∈ [(0x00 : Byte), 0xFF], x ≠ Config.reference.magic := by decide

theorem witness_StreamLaw :
    ∀ ev ∈ [TraceEvent.exch 0x00, .clr, .exch 0xF1], ev = .clr ∨ ∃ rx, rx ≠ Config.reference.magic ∧ ev = .exch rx := by
  intro ev h
  simp only [List.mem_cons, List.not_mem_nil, or_false] at h
  rcases h with rfl | rfl | rfl
  · exact .inr ⟨0x00, by decide, rfl⟩
  · exact .inl rfl
  · exact .inr ⟨0xF1, by decide, rfl⟩

theorem witness_StreamOrderFromCursorZero :
    (st Config.reference 0 0xAA false).cursor = 0 ∧ ∀ x ∈ List.replicate 7 (0x00 : Byte), x ≠ Config.reference.magic := by
  decide

/-- With a reset and without. -/
theorem witness_EdgeEqualsItsActions :
    Accepts (st refreshCfg 2 0 true) (refreshOf (unpack refreshCfg 0x0AB2700#28)) ∧
      (unpack refreshCfg 0x0AB2700#28).rst = false ∧
      Accepts (st refreshCfg 2 0 true) (refreshOf (unpack refreshCfg 0x0AB2F00#28)) ∧
      (unpack refreshCfg 0x0AB2F00#28).rst = true := by decide

theorem witness_EdgesRefineExchanges :
    (carrying frameEdges).cfg.wf = true ∧ (carrying frameEdges).owed = false ∧
      List.Forall₂ (Carries (carrying frameEdges).cfg) (initiatorSends Config.reference) frameEdges ∧
      (carrying frameEdges).inputs = allEdges frameEdges ++ [] :=
  ⟨by decide, rfl, frameEdges_carry, rfl⟩

theorem witness_FrameLaw :
    (carrying frameEdges).cfg.wf = true ∧ (carrying frameEdges).cfg.magic ≠ 0 ∧ (carrying frameEdges).owed = false ∧
      List.Forall₂ (Carries (carrying frameEdges).cfg) (initiatorSends (carrying frameEdges).cfg) frameEdges ∧
      (carrying frameEdges).inputs = allEdges frameEdges ++ [] ∧ (carrying frameEdges).cfg = Config.reference ∧
      ∀ i < 5, some (readSlot (carrying frameEdges) i) = Config.reference.initSlot i :=
  ⟨by decide, by decide, rfl, frameEdges_carry, rfl, rfl, by decide⟩

theorem witness_TwoFramesCaptureTheSame :
    (carrying (frameEdges ++ frameEdges)).cfg.wf = true ∧ (carrying (frameEdges ++ frameEdges)).cfg.magic ≠ 0 ∧
      (carrying (frameEdges ++ frameEdges)).owed = false ∧
      List.Forall₂ (Carries Config.reference) (initiatorSends Config.reference) frameEdges ∧
      (carrying (frameEdges ++ frameEdges)).inputs = allEdges (frameEdges ++ frameEdges) ++ [] :=
  ⟨by decide, by decide, rfl, frameEdges_carry, rfl⟩

theorem witness_TruncatedFrameHeals : 1 ≤ 1 ∧ (st Config.reference 3 0 true).cfg.magic ≠ 0 := by decide

theorem witness_ByteRepeatsWithoutAnEvent :
    ∀ e ∈ [({ cyc := 0#28, load := true } : Edge), { cyc := 0x0000200#28, load := true, dropped := true }],
      (unpack Config.reference e.cyc).rst = false ∧ (unpack Config.reference e.cyc).rxValid = false := by decide

theorem witness_MagicRestartsTheStream : ∀ y ∈ [(0x00 : Byte), 0x5A], y ≠ Config.reference.magic := by decide

theorem witness_ZeroMagicFrameRepeatsSlotZero : zeroMagicCfg.magic = 0 ∧ 0 < zeroMagicCfg.valCount := by decide

theorem witness_ResetInAFrameRestartsAtSlotZero :
    (∀ x ∈ [(0x00 : Byte), 0x00], x ≠ Config.reference.magic) ∧ 0 < (st Config.reference 3 0 true).cfg.valCount := by decide

/-- An event and its load on one edge, and a load on the next. -/
theorem witness_LoadAfterTheEventIsInTime :
    let e := lineEdge Config.reference [.exch 0x00]
    let s := { st Config.reference 1 0x59 true with inputs := [e, e], loaded := 1 }
    (fieldsIn s).rxValid = true ∧ (edgeIn s).extra = false ∧
      (nextOf (step s)).map (fun t => decide ((edgeIn t).load = true ∧
        (edgeIn t).cyc.toNat < 2 ^ cycWidth t.cfg ∧ Accepts t (refreshOf (fieldsIn t)))) = some true := by decide

/-- An extra event and a clear inside exchange 2, then the load of exchange 3 at the edge of exchange 2's own event. -/
theorem witness_NoLoadBeforeTheOwnEvent :
    let es : List Edge := [{ cyc := 0x0000100#28, extra := true }, { cyc := 0x0000200#28 }]
    let e : Edge := { cyc := 0x0000100#28, load := true }
    let s := { st Config.reference 2 0x43 true with inputs := es ++ [e], loaded := 2, owed := true }
    s.owed = true ∧ (nextOf (core.run es.length s)).map (fun t => decide (Accepts t (refreshOf (unpack s.cfg e.cyc)))) = some true ∧
      (∀ x ∈ es, x.load = false ∧ x.dropped = false ∧ ((unpack s.cfg x.cyc).rxValid = true → x.extra = true)) ∧
      e.cyc.toNat < 2 ^ cycWidth s.cfg ∧ e.load = true ∧ e.dropped = false := by decide

/-- A line of three events, the write to the last slot. -/
theorem witness_TraceLineRunsItsActions :
    (st refreshCfg 2 0x43 true).cfg.wf = true ∧ (st refreshCfg 2 0x43 true).owed = false ∧ refreshCfg.hasRefresh = true ∧
      ∀ i v, TraceEvent.wr i v ∈ [.clr, .exch 0xF0, .wr 15 0x20] → refreshCfg.hasRefresh = true ∧ i < refreshCfg.bufCap :=
  ⟨by decide, rfl, rfl, fun i v h => by simp at h; obtain ⟨rfl, -⟩ := h; decide⟩

/-- FL-1's state: exchange 2 is owed its event, and the load comes at the event's own edge. -/
theorem witness_LateLoadFaults :
    let s := { st Config.reference 2 0x43 true with
      inputs := [{ cyc := 0x0000100#28, load := true }], loaded := 2, owed := true }
    (edgeIn s).cyc.toNat < 2 ^ cycWidth s.cfg ∧ Accepts s (refreshOf (fieldsIn s)) ∧ (edgeIn s).load = true ∧
      s.owed = true ∧ (edgeIn s).dropped = false := by decide

/-- The step that faults is the one of `test_step_deadline_missed`. -/
theorem witness_OnlyLateLoadsFault :
    (faultOf (step { st Config.reference 2 0x43 true with
      inputs := [{ cyc := 0x0000000#28, load := true }], loaded := 2, owed := true })).isSome = true := by decide

/-- Two states that differ in an unused slot. -/
theorem witness_UnusedSlotsAreUnobservable :
    LiveEq (st refreshCfg 2 0x43 true) (writeSlot (st refreshCfg 2 0x43 true) 9 0x77) := by
  refine ⟨rfl, rfl, rfl, rfl, rfl, rfl, rfl, rfl, rfl, fun i hi => ?_⟩
  have h5 : i < 5 := hi
  show readSlot (writeSlot _ 9 0x77) i = _
  simp only [readSlot, writeSlot, Memory.write]
  split <;> simp [st, State.resetFor, Memory.drop, Memory.put, Memory.find, show ¬ 9 = i by omega]

theorem witness_FlagNeverReachesTheStream :
    List.Forall₂ (SameButClr Config.reference) [{ cyc := 0x0000100#28 }, { cyc := 0#28, load := true }]
      [{ cyc := 0x0000300#28 }, { cyc := 0x0000200#28, load := true }] :=
  .cons (by decide) (.cons (by decide) .nil)

end Sys2Proof.Tests
end

section
/-! PROOFS. What every instruction has in common: one guard, then one result (R43, R86). -/

namespace Sys2Proof.Machine

/-- The refresh write that an instruction carries, which the guard checks before anything else (R86 item 1). -/
def refreshWrite : Instr → Option Refresh
  | .reset wr => wr
  | .resync _ wr => wr
  | .advanceEmit _ _ wr => wr
  | .advancePad _ _ wr => wr
  | .flagClr wr => wr
  | .bufWr r => some r
  | .idle => none

/-- The state in which an instruction that nothing refuses leaves the block. -/
def resultState (s : State) : Instr → State
  | .reset _ => resetState s
  | .resync clr wr => applyWr (byteEvent s .resync clr) wr
  | .advanceEmit _ clr wr => applyWr (byteEvent s .advance clr) wr
  | .advancePad _ clr wr => applyWr (byteEvent s .advance clr) wr
  | .flagClr wr => applyWr (setFlag s (flagNext false true s.rxFlag)) wr
  | .bufWr r => applyWr s (some r)
  | .idle => s

/-- Every instruction is its guard and its result, so a proof about `exec` needs no split over `exec`'s arms. -/
theorem exec_eq_guardEdge (i : Instr) (s : State) :
    exec i s = guardEdge s (refreshWrite i) (resultState s i) := by
  cases i <;> rfl

theorem exec_next_iff {i : Instr} {s t : State} :
    exec i s = .next t ↔ Accepts s (refreshWrite i) ∧ t = resultState s i := by
  rw [exec_eq_guardEdge, guardEdge_next_iff]

@[simp] theorem applyWr_cfg (s : State) (wr : Option Refresh) : (applyWr s wr).cfg = s.cfg := by
  cases wr <;> rfl

@[simp] theorem byteEvent_cfg (s : State) (k : RxClass) (clr : Bool) : (byteEvent s k clr).cfg = s.cfg := by
  obtain ⟨-, -, -, -, hcfg, -⟩ := byteEvent_fields s k clr
  exact hcfg

/-- No instruction's result has another configuration (R6). -/
@[simp] theorem resultState_cfg (s : State) (i : Instr) : (resultState s i).cfg = s.cfg := by
  cases i <;> simp [resultState]

end Sys2Proof.Machine
end

section
/-! PROOFS. The scope (00_scope.md): well-formed configurations, that they never change, and the invariant at reset. -/

namespace Sys2Proof.Machine

theorem wf_iff_conditions {c : Config} :
    c.wf = true ↔
      (1 ≤ c.bufCap ∧ c.bufCap ≤ 256) ∧ c.valCount ≤ c.bufCap ∧ (∀ i < c.valCount, (c.initSlot i).isSome = true) ∧
        1 ≤ c.frameBody := by
  refine ⟨conditions_of_wf, ?_⟩
  rintro ⟨hcap, hcount, hlive, hframe⟩
  have hfailed : c.failed = none := by
    rw [Config.failed, if_neg (not_not.2 hcap), if_neg (not_not.2 hcount), if_neg (not_not.2 hlive),
      if_neg (not_not.2 hframe)]
  rw [Config.wf, hfailed, Option.isNone_none]

/-- A configuration that is not well formed fails some first condition of R5. -/
theorem exists_failed_of_not_wf {c : Config} (h : c.wf = false) : ∃ cond, c.failed = some cond :=
  Option.isSome_iff_exists.1 (Option.isNone_eq_false_iff.1 h)

theorem guardEdge_of_failed {s : State} {cond : ConfigCond} (h : s.cfg.failed = some cond) (wr : Option Refresh)
    (t : State) : guardEdge s wr t = .refused (.configRefused cond) := by
  simp [guardEdge, h]

theorem exec_of_failed {s : State} {cond : ConfigCond} (h : s.cfg.failed = some cond) (i : Instr) :
    exec i s = .refused (.configRefused cond) := by
  rw [exec_eq_guardEdge, guardEdge_of_failed h]

theorem fetch_of_failed {s : State} {cond : ConfigCond} (h : s.cfg.failed = some cond) :
    fetch s = .error (.configRefused cond) := by
  simp [fetch, h]

theorem step_of_failed {s : State} {cond : ConfigCond} (h : s.cfg.failed = some cond) :
    step s = .refused (.configRefused cond) := by
  simp [step, fetch_of_failed h]

/-- With no live slot the byte multiplexer chooses `PAD`, whatever the cursor it works from (R53). -/
theorem byteEvent_txReg_of_valCount_zero {s : State} (h : s.cfg.valCount = 0) (k : RxClass) (clr : Bool) :
    (byteEvent s k clr).txReg = s.cfg.pad := by
  obtain ⟨-, htx, -⟩ := byteEvent_fields s k clr
  rw [htx, h, if_neg (Nat.not_lt_zero _)]

/-- Settles O10: `failed` tests R5's conditions in turn, and both the fetch and the guard of every instruction ask it
first. -/
theorem illFormedConfigurationRefused : Obligations.IllFormedConfigurationRefused := by
  refine ⟨fun _ => wf_iff_conditions, fun s hs => ?_, fun s rx h0 => ?_⟩
  · obtain ⟨cond, hcond⟩ := exists_failed_of_not_wf hs
    exact ⟨cond, hcond, step_of_failed hcond, exec_of_failed hcond⟩
  · exact byteEvent_txReg_of_valCount_zero h0 (rxClass s.cfg rx) false

/-- Settles O11: the step is an instruction's result moved on by the environment, and neither touches `cfg`. -/
theorem configurationNeverChanges : Obligations.ConfigurationNeverChanges := by
  intro s u hstep
  obtain ⟨i, t, -, hexec, -, rfl⟩ := step_next_iff.1 hstep
  obtain ⟨-, rfl⟩ := exec_next_iff.1 hexec
  rw [advance_cfg, resultState_cfg]

/-- Nothing is listed and the cursor is 0 after reset, whatever the schedule. -/
theorem stateInv_resetFor {c : Config} (hc : c.wf = true) (inputs : List Edge) :
    StateInv { State.resetFor c with inputs := inputs } :=
  ⟨hc, Nat.zero_le _, .nil, nofun⟩

/-- Settles O31: `State.reset` is the start state of the reference configuration with an empty schedule. -/
theorem resetMeetsInvariant : Obligations.ResetMeetsInvariant :=
  ⟨fun _ inputs hc => stateInv_resetFor hc inputs, stateInv_resetFor (by decide) []⟩

end Sys2Proof.Machine
end

section
/-! PROOFS. One edge in the fields of its CYC word (R43): what the instruction that they decode to does, and what a step
that answers a next state does. -/

namespace Sys2Proof.Machine

/-- The byte event and the clear of an edge without reset, before its refresh write (R43, R48, R86). -/
def eventResult (s : State) (f : CycFields) : State :=
  if f.rxValid then byteEvent s (rxClass s.cfg f.rxByte) f.flagClr
  else if f.flagClr then setFlag s false
  else s

/-- The state in which an edge with these fields leaves the block, where nothing refuses it (R43). -/
def edgeResult (s : State) (f : CycFields) : State :=
  if f.rst then resetState s else applyWr (eventResult s f) (refreshOf f)

/-- Whatever instruction the fields of an edge decode to, and in either case of the state, it is the guard of the edge's
refresh write and then the edge's result. -/
theorem exec_classify (s : State) (live : Bool) (f : CycFields) :
    exec (classify s.cfg live f) s = guardEdge s (refreshOf f) (edgeResult s f) := by
  unfold classify edgeResult eventResult
  cases f.rst with
  | true => rfl
  | false =>
    cases f.rxValid with
    | true => cases rxClass s.cfg f.rxByte <;> cases live <;> rfl
    | false =>
      cases f.flagClr with
      | true => rfl
      | false => cases refreshOf f <;> rfl

/-- A CYC word of a well-formed configuration runs as its fields say. -/
theorem step_of_cycWord {s : State} (hc : s.cfg.failed = none) (hw : (edgeIn s).cyc.toNat < 2 ^ cycWidth s.cfg) :
    step s = finishEdge s (guardEdge s (refreshOf (fieldsIn s)) (edgeResult s (fieldsIn s))) := by
  simp [step, fetch, hc, decode, hw, exec_classify, fieldsIn]

/-- A bit pattern beyond the width of a CYC word is refused (log 6). -/
theorem step_of_beyondWidth {s : State} (hc : s.cfg.failed = none) (hw : ¬ (edgeIn s).cyc.toNat < 2 ^ cycWidth s.cfg) :
    step s = .refused (.notCycWord s.edges) := by
  simp [step, fetch, hc, decode, hw]

/-- A step that answers a next state accepted the edge's refresh write, and answers the edge's result, moved on by the
environment. -/
theorem accepts_and_eq_of_step {s t : State} (h : step s = .next t) :
    Accepts s (refreshOf (fieldsIn s)) ∧ t = advance (edgeResult s (fieldsIn s)) (edgeIn s) := by
  obtain ⟨i, u, hfetch, hexec, -, rfl⟩ := step_next_iff.1 h
  obtain ⟨-, hdecode⟩ := fetch_ok_iff.1 hfetch
  obtain ⟨-, rfl⟩ := decode_ok_iff.1 hdecode
  rw [exec_classify] at hexec
  obtain ⟨haccepts, rfl⟩ := guardEdge_next_iff.1 hexec
  exact ⟨haccepts, rfl⟩

theorem edgeResult_of_rst {s : State} {f : CycFields} (h : f.rst = true) : edgeResult s f = resetState s := by
  simp [edgeResult, h]

theorem edgeResult_of_not_rst {s : State} {f : CycFields} (h : f.rst = false) :
    edgeResult s f = applyWr (eventResult s f) (refreshOf f) := by
  simp [edgeResult, h]

theorem eventResult_of_rxValid {s : State} {f : CycFields} (h : f.rxValid = true) :
    eventResult s f = byteEvent s (rxClass s.cfg f.rxByte) f.flagClr := by
  simp [eventResult, h]

theorem eventResult_of_flagClr {s : State} {f : CycFields} (hrx : f.rxValid = false) (hclr : f.flagClr = true) :
    eventResult s f = setFlag s false := by
  simp [eventResult, hrx, hclr]

theorem eventResult_of_none {s : State} {f : CycFields} (hrx : f.rxValid = false) (hclr : f.flagClr = false) :
    eventResult s f = s := by
  simp [eventResult, hrx, hclr]

@[simp] theorem applyWr_cursor (s : State) (wr : Option Refresh) : (applyWr s wr).cursor = s.cursor := by
  obtain ⟨hcursor, -⟩ := applyWr_fields s wr
  exact hcursor

@[simp] theorem applyWr_txReg (s : State) (wr : Option Refresh) : (applyWr s wr).txReg = s.txReg := by
  obtain ⟨-, htx, -⟩ := applyWr_fields s wr
  exact htx

@[simp] theorem applyWr_rxFlag (s : State) (wr : Option Refresh) : (applyWr s wr).rxFlag = s.rxFlag := by
  obtain ⟨-, -, hflag, -⟩ := applyWr_fields s wr
  exact hflag

@[simp] theorem byteEvent_rxFlag (s : State) (k : RxClass) (clr : Bool) : (byteEvent s k clr).rxFlag = true := by
  obtain ⟨-, -, hflag, -⟩ := byteEvent_fields s k clr
  exact hflag

@[simp] theorem eventResult_cfg (s : State) (f : CycFields) : (eventResult s f).cfg = s.cfg := by
  unfold eventResult
  split
  · exact byteEvent_cfg _ _ _
  · split <;> rfl

@[simp] theorem edgeResult_cfg (s : State) (f : CycFields) : (edgeResult s f).cfg = s.cfg := by
  unfold edgeResult
  split
  · rfl
  · rw [applyWr_cfg, eventResult_cfg]

/-- Without a byte event the cursor and `tx_reg` stay (R13, R15). -/
theorem eventResult_registers_of_not_rxValid {s : State} {f : CycFields} (h : f.rxValid = false) :
    (eventResult s f).cursor = s.cursor ∧ (eventResult s f).txReg = s.txReg := by
  cases hclr : f.flagClr with
  | true => rw [eventResult_of_flagClr h hclr]; exact ⟨rfl, rfl⟩
  | false => rw [eventResult_of_none h hclr]; exact ⟨rfl, rfl⟩

/-- A byte event sets the flag and beats a clear (R56, R67). -/
theorem eventResult_rxFlag (s : State) (f : CycFields) :
    (eventResult s f).rxFlag =
      if f.rxValid = true then true else if f.flagClr = true then false else s.rxFlag := by
  unfold eventResult
  split
  · exact byteEvent_rxFlag _ _ _
  · split <;> rfl

/-- Neither a byte event nor a clear changes a slot (R30). -/
theorem readSlot_eventResult (s : State) (f : CycFields) (a : Nat) : readSlot (eventResult s f) a = readSlot s a := by
  unfold eventResult
  split
  · exact readSlot_byteEvent _ _ _ _
  · split <;> rfl

/-- What a slot holds after the refresh write of an edge, in the fields of its CYC word (R31, R44). -/
theorem slotAfter_refreshOf (s : State) (f : CycFields) (a : Nat) :
    slotAfter s (refreshOf f) a = if f.bufWe = true ∧ a = f.bufWaddr then f.bufWdata else readSlot s a := by
  cases h : f.bufWe <;> simp [refreshOf, slotAfter, h]

end Sys2Proof.Machine
end

section
/-! PROOFS. The state (10_state.md): the invariant of every run, who writes each component, and the state right after
reset. -/

namespace Sys2Proof.Machine

/-- The cursor goes up only from a value below `VAL_COUNT`, so it never passes it (R17). -/
theorem byteEvent_cursor_le {s : State} (h : s.cursor ≤ s.cfg.valCount) (k : RxClass) (clr : Bool) :
    (byteEvent s k clr).cursor ≤ s.cfg.valCount := by
  have hfrom : cursorFrom s k ≤ s.cfg.valCount := by
    cases k with
    | resync => exact Nat.zero_le _
    | advance => exact h
  obtain ⟨hcursor, -⟩ := byteEvent_fields s k clr
  rw [hcursor]
  split
  · exact Nat.succ_le_of_lt ‹_›
  · exact hfrom

theorem stateInv_byteEvent {s : State} (h : StateInv s) (k : RxClass) (clr : Bool) : StateInv (byteEvent s k clr) := by
  obtain ⟨hcfg, hcursor, hbuf⟩ := h
  exact ⟨by rwa [byteEvent_cfg], by rw [byteEvent_cfg]; exact byteEvent_cursor_le hcursor k clr,
    byteEvent_wf k clr hbuf⟩

theorem stateInv_setFlag {s : State} (h : StateInv s) (v : Bool) : StateInv (setFlag s v) := h

theorem stateInv_applyWr {s : State} {wr : Option Refresh} (h : StateInv s) (hr : ∀ r ∈ wr, r.addr < s.cfg.bufCap) :
    StateInv (applyWr s wr) := by
  obtain ⟨hcfg, hcursor, hbuf⟩ := h
  exact ⟨by rwa [applyWr_cfg], by rwa [applyWr_cfg, applyWr_cursor], applyWr_wf hr hbuf⟩

theorem stateInv_resetState {s : State} (h : s.cfg.wf = true) : StateInv (resetState s) :=
  ⟨h, Nat.zero_le _, resetState_wf s⟩

theorem stateInv_eventResult {s : State} (h : StateInv s) (f : CycFields) : StateInv (eventResult s f) := by
  unfold eventResult
  split
  · exact stateInv_byteEvent h _ _
  · split
    · exact stateInv_setFlag h false
    · exact h

/-- An edge whose refresh write is accepted keeps the invariant. -/
theorem stateInv_edgeResult {s : State} {f : CycFields} (h : StateInv s) (ha : Accepts s (refreshOf f)) :
    StateInv (edgeResult s f) := by
  obtain ⟨hcfg, hwr⟩ := ha
  unfold edgeResult
  split
  · exact stateInv_resetState hcfg
  · refine stateInv_applyWr (stateInv_eventResult h f) fun r hr => ?_
    obtain ⟨-, haddr⟩ := hwr r hr
    rwa [eventResult_cfg]

/-- The environment's side of an edge is no part of the invariant. -/
theorem stateInv_advance {s : State} (h : StateInv s) (e : Edge) : StateInv (advance s e) := h

/-- Settles O32: the guard lets only a write to a slot of the buffer through, and every event of an edge keeps the
invariant. -/
theorem stepKeepsInvariant : Obligations.StepKeepsInvariant := by
  intro s t hinv hstep
  obtain ⟨haccepts, rfl⟩ := accepts_and_eq_of_step hstep
  exact stateInv_advance (stateInv_edgeResult hinv haccepts) _

/-- Settles O24: a clear and a refresh write, all that such an edge may carry, touch neither register. -/
theorem cursorWrittenOnlyByEventsAndReset : Obligations.CursorWrittenOnlyByEventsAndReset := by
  intro s t hstep hrst hrx
  obtain ⟨-, rfl⟩ := accepts_and_eq_of_step hstep
  rw [advance_cursor, advance_txReg, edgeResult_of_not_rst hrst, applyWr_cursor, applyWr_txReg]
  exact eventResult_registers_of_not_rxValid hrx

/-- Settles O25: reset clears the flag, and a refresh write leaves what the byte event or the clear made of it. -/
theorem flagAfterEveryStep : Obligations.FlagAfterEveryStep := by
  intro s t hstep
  obtain ⟨-, rfl⟩ := accepts_and_eq_of_step hstep
  refine ⟨?_, rfl⟩
  rw [advance_rxFlag]
  cases hrst : (fieldsIn s).rst with
  | true => rw [edgeResult_of_rst hrst, resetState_rxFlag, if_pos rfl]
  | false =>
    rw [edgeResult_of_not_rst hrst, applyWr_rxFlag, eventResult_rxFlag, if_neg Bool.false_ne_true]

/-- A reset gives a specified slot its byte of `INIT_BUF` (R23, R95). -/
theorem readSlot_resetState_of_specified {s : State} {i : Nat} {b : Byte} (h : s.cfg.initSlot i = some b) :
    readSlot (resetState s) i = b := by
  rw [readSlot_resetState, unlisted, h, Option.getD_some]

/-- An edge without reset changes at most the slot of its refresh write (R31). -/
theorem readSlot_edgeResult_of_not_rst {s : State} {f : CycFields} (h : f.rst = false) (a : Nat) :
    readSlot (edgeResult s f) a = if f.bufWe = true ∧ a = f.bufWaddr then f.bufWdata else readSlot s a := by
  rw [edgeResult_of_not_rst h, readSlot_applyWr, slotAfter_refreshOf, readSlot_eventResult]

/-- Settles O26: reset lists nothing, and without one only the refresh write reaches the buffer. -/
theorem bufferAfterEveryStep : Obligations.BufferAfterEveryStep := by
  intro s t hstep
  obtain ⟨-, rfl⟩ := accepts_and_eq_of_step hstep
  simp only [readSlot_advance]
  refine ⟨fun hrst i b hslot => ?_, fun hrst a => readSlot_edgeResult_of_not_rst hrst a⟩
  rw [edgeResult_of_rst hrst]
  exact readSlot_resetState_of_specified hslot

/-- The invariant holds at reset and every step keeps it, so it holds in every reachable state. -/
theorem stateInv_of_reachable {c : Config} {s : State} (hc : c.wf = true) (h : Reachable c s) :
    s.cfg = c ∧ StateInv s := by
  induction h with
  | start inputs => exact ⟨rfl, stateInv_resetFor hc inputs⟩
  | step s t _ hstep ih =>
    obtain ⟨hcfg, hinv⟩ := ih
    exact ⟨(configurationNeverChanges s t hstep).trans hcfg, stepKeepsInvariant s t hinv hstep⟩

/-- Settles O33: the cursor's bound is a part of the invariant. -/
theorem cursorBoundedInReachableStates : Obligations.CursorBoundedInReachableStates := by
  intro c s hc hreach
  obtain ⟨rfl, -, hcursor, -⟩ := stateInv_of_reachable hc hreach
  exact ⟨rfl, hcursor⟩

/-- Right after reset nothing is listed, so every slot reads as its reset contents (R23). -/
theorem readSlot_resetFor (c : Config) (i : Nat) : readSlot (State.resetFor c) i = unlisted c 0 i := rfl

/-- The reference configuration specifies the five payload slots only (R4). -/
theorem initSlot_reference_of_ge {i : Nat} (h : 5 ≤ i) : Config.reference.initSlot i = none := by
  rw [Config.initSlot, List.getElem?_eq_none h, Option.join_none]

/-- Settles O22: the five specified slots evaluate, and each of the others is the draw of its number. -/
theorem referenceStateAfterReset : Obligations.ReferenceStateAfterReset := by
  refine ⟨rfl, rfl, rfl, rfl, ⟨_, rfl⟩, fun i hi _ => ⟨0 + i, ?_⟩⟩
  rw [State.reset, readSlot_resetFor, unlisted, initSlot_reference_of_ge hi, Option.getD_none]

end Sys2Proof.Machine
end

section
/-! PROOFS. The flag and the host's clears (R20, R73): they reach neither the bytes sent nor a stop. -/

namespace Sys2Proof.Machine

/-- The machine with another flag and another schedule, everything else the same. -/
def withFlagAndInputs (s : State) (flag : Bool) (es : List Edge) : State := { s with rxFlag := flag, inputs := es }

/-- Fields that differ at most in `flag_clr` (R73) are the one with the other's clear. -/
theorem eq_with_flagClr {f f' : CycFields} (h : { f' with flagClr := false } = { f with flagClr := false }) :
    f' = { f with flagClr := f'.flagClr } :=
  congrArg (fun g : CycFields => { g with flagClr := f'.flagClr }) h

/-- The next edges of the two machines differ at most in `flag_clr`: past the end of the two schedules it is one free
edge (log 3). -/
theorem edgeIn_sameButClr {s : State} {es : List Edge} (h : List.Forall₂ (SameButClr s.cfg) s.inputs es)
    (flag : Bool) : SameButClr s.cfg (edgeIn s) (edgeIn (withFlagAndInputs s flag es)) := by
  unfold edgeIn withFlagAndInputs
  generalize s.inputs = inputs at h
  cases h with
  | nil => exact ⟨Iff.rfl, rfl, rfl, rfl, rfl⟩
  | cons hhead _ => exact hhead

theorem fieldsIn_withFlagAndInputs {s : State} {es : List Edge} (h : List.Forall₂ (SameButClr s.cfg) s.inputs es)
    (flag : Bool) :
    fieldsIn (withFlagAndInputs s flag es) =
      { fieldsIn s with flagClr := (fieldsIn (withFlagAndInputs s flag es)).flagClr } := by
  obtain ⟨-, -, -, -, hfields⟩ := edgeIn_sameButClr h flag
  exact eq_with_flagClr hfields

/-- The byte multiplexer and the index FSM read neither the flag nor the schedule, and the flag is set (R53, R56). -/
theorem byteEvent_withFlagAndInputs (s : State) (flag : Bool) (es : List Edge) (k : RxClass) (clr clr' : Bool) :
    byteEvent (withFlagAndInputs s flag es) k clr' = withFlagAndInputs (byteEvent s k clr) true es := by
  have hfrom : cursorFrom (withFlagAndInputs s flag es) k = cursorFrom s k := by cases k <;> rfl
  unfold byteEvent
  rw [hfrom]
  by_cases h : cursorFrom s k < s.cfg.valCount
  · rw [if_pos h, if_pos (by exact h)]; rfl
  · rw [if_neg h, if_neg (by exact h)]; rfl

theorem applyWr_withFlagAndInputs (s : State) (flag : Bool) (es : List Edge) (wr : Option Refresh) :
    applyWr (withFlagAndInputs s flag es) wr = withFlagAndInputs (applyWr s wr) flag es := by
  cases wr <;> rfl

/-- Of the state after an edge's events, only the flag depends on the flag before and on the clear. -/
theorem eventResult_withFlagAndInputs (s : State) (flag clr : Bool) (es : List Edge) (f : CycFields) :
    ∃ flag', eventResult (withFlagAndInputs s flag es) { f with flagClr := clr } =
      withFlagAndInputs (eventResult s f) flag' es := by
  rcases Bool.eq_false_or_eq_true f.rxValid with hrx | hrx
  · rw [eventResult_of_rxValid hrx, eventResult_of_rxValid (by exact hrx)]
    exact ⟨true, byteEvent_withFlagAndInputs s flag es _ _ _⟩
  · have hleft : ∃ flag', eventResult (withFlagAndInputs s flag es) { f with flagClr := clr } =
        withFlagAndInputs s flag' es := by
      cases clr with
      | true => exact ⟨false, eventResult_of_flagClr hrx rfl⟩
      | false => exact ⟨flag, eventResult_of_none hrx rfl⟩
    have hright : ∀ flag', withFlagAndInputs (eventResult s f) flag' es = withFlagAndInputs s flag' es := by
      intro flag'
      cases hclr : f.flagClr with
      | true => rw [eventResult_of_flagClr hrx hclr]; rfl
      | false => rw [eventResult_of_none hrx hclr]
    simpa only [hright] using hleft

theorem edgeResult_withFlagAndInputs (s : State) (flag clr : Bool) (es : List Edge) (f : CycFields) :
    ∃ flag', edgeResult (withFlagAndInputs s flag es) { f with flagClr := clr } =
      withFlagAndInputs (edgeResult s f) flag' es := by
  rcases Bool.eq_false_or_eq_true f.rst with hrst | hrst
  · rw [edgeResult_of_rst hrst, edgeResult_of_rst (by exact hrst)]
    exact ⟨false, rfl⟩
  · obtain ⟨flag', hevent⟩ := eventResult_withFlagAndInputs s flag clr es f
    rw [edgeResult_of_not_rst hrst, edgeResult_of_not_rst (by exact hrst), hevent]
    exact ⟨flag', applyWr_withFlagAndInputs _ _ _ _⟩

/-- The deadline is kept without the flag and the clears (R98). -/
theorem late_withFlagAndInputs {s : State} {e e' : Edge} (he : SameButClr s.cfg e e') (flag : Bool) (es : List Edge) :
    late (withFlagAndInputs s flag es) e' = late s e := by
  obtain ⟨-, hload, hdropped, -, -⟩ := he
  rw [late, late, hload, hdropped]
  rfl

theorem advance_withFlagAndInputs {s : State} {e e' : Edge} (he : SameButClr s.cfg e e') (flag : Bool)
    (es : List Edge) :
    advance (withFlagAndInputs s flag es) e' = withFlagAndInputs (advance s e) flag es.tail := by
  obtain ⟨-, hload, hdropped, hextra, hfields⟩ := he
  have hown : ownEvent s.cfg e' = ownEvent s.cfg e := by
    rw [ownEvent, ownEvent, hextra, congrArg CycFields.rxValid (eq_with_flagClr hfields)]
  simp [advance, withFlagAndInputs, hload, hdropped, hown]

/-- The guard of an edge lets every result through or refuses all alike: it does not look at the result. -/
theorem guardEdge_cases (s : State) (wr : Option Refresh) :
    (∀ t, guardEdge s wr t = .next t) ∨ ∃ r, ∀ t, guardEdge s wr t = .refused r := by
  unfold guardEdge
  cases s.cfg.failed with
  | some cond => exact .inr ⟨_, fun _ => rfl⟩
  | none =>
    cases wr with
    | none => exact .inl fun _ => rfl
    | some r =>
      by_cases hport : s.cfg.hasRefresh = false
      · exact .inr ⟨_, fun _ => if_pos hport⟩
      · by_cases haddr : s.cfg.bufCap ≤ r.addr
        · exact .inr ⟨_, fun _ => (if_neg hport).trans (if_pos haddr)⟩
        · exact .inl fun _ => (if_neg hport).trans (if_neg haddr)

theorem guardEdge_withFlagAndInputs (s : State) (flag : Bool) (es : List Edge) (wr : Option Refresh) (t : State) :
    guardEdge (withFlagAndInputs s flag es) wr t = guardEdge s wr t := rfl

/-- What the step of `s'` is beside the step of `s`: the same stop, or a next state that differs from that of `s` at most
in the flag and the schedule. -/
def StepsAlike (s s' : State) (es : List Edge) : Prop :=
  (∃ t flag, step s = .next t ∧ step s' = .next (withFlagAndInputs t flag es)) ∨
    ((∀ t, step s ≠ .next t) ∧ step s' = step s)

/-- On a CYC word of a well-formed configuration the two machines run one instruction but for its clear. -/
theorem stepsAlike_of_cycWord {s : State} {es : List Edge} (h : List.Forall₂ (SameButClr s.cfg) s.inputs es)
    (flag : Bool) (hc : s.cfg.failed = none) (hw : (edgeIn s).cyc.toNat < 2 ^ cycWidth s.cfg) :
    StepsAlike s (withFlagAndInputs s flag es) es.tail := by
  have he := edgeIn_sameButClr h flag
  obtain ⟨hwidth, -⟩ := edgeIn_sameButClr h flag
  have hf := fieldsIn_withFlagAndInputs h flag
  obtain ⟨flag', hresult⟩ := edgeResult_withFlagAndInputs s flag
    (fieldsIn (withFlagAndInputs s flag es)).flagClr es (fieldsIn s)
  have hrefresh : refreshOf (fieldsIn (withFlagAndInputs s flag es)) = refreshOf (fieldsIn s) := by rw [hf]; rfl
  rw [← hf] at hresult
  have hs := step_of_cycWord hc hw
  have hs' := step_of_cycWord (s := withFlagAndInputs s flag es) hc (hwidth.1 hw)
  rw [guardEdge_withFlagAndInputs, hrefresh, hresult] at hs'
  rcases guardEdge_cases s (refreshOf (fieldsIn s)) with hnext | ⟨r, hrefused⟩
  · rw [hnext, finishEdge] at hs hs'
    rw [late_withFlagAndInputs he] at hs'
    cases hlate : late s (edgeIn s) with
    | true =>
      rw [hlate, if_pos rfl] at hs hs'
      exact .inr ⟨by simp [hs], hs'.trans hs.symm⟩
    | false =>
      rw [hlate, if_neg Bool.false_ne_true] at hs hs'
      rw [advance_withFlagAndInputs (s := edgeResult s (fieldsIn s)) (by rwa [edgeResult_cfg])] at hs'
      exact .inl ⟨_, flag', hs, hs'⟩
  · rw [hrefused, finishEdge] at hs hs'
    exact .inr ⟨by simp [hs], hs'.trans hs.symm⟩

/-- A step of two machines that differ at most in the flag and the clears. -/
theorem stepsAlike_withFlagAndInputs {s : State} {es : List Edge} (h : List.Forall₂ (SameButClr s.cfg) s.inputs es)
    (flag : Bool) : StepsAlike s (withFlagAndInputs s flag es) es.tail := by
  cases hc : s.cfg.failed with
  | some cond =>
    have hs := step_of_failed hc
    exact .inr ⟨by simp [hs], (step_of_failed (s := withFlagAndInputs s flag es) hc).trans hs.symm⟩
  | none =>
    by_cases hw : (edgeIn s).cyc.toNat < 2 ^ cycWidth s.cfg
    · exact stepsAlike_of_cycWord h flag hc hw
    · obtain ⟨hwidth, -⟩ := edgeIn_sameButClr h flag
      have hs := step_of_beyondWidth hc hw
      have hs' := step_of_beyondWidth (s := withFlagAndInputs s flag es) hc (mt hwidth.2 hw)
      exact .inr ⟨by simp [hs], hs'.trans hs.symm⟩

/-- The events and the refresh write of an edge leave the schedule alone. -/
theorem edgeResult_inputs (s : State) (f : CycFields) : (edgeResult s f).inputs = s.inputs := by
  have hevent : (eventResult s f).inputs = s.inputs := by
    unfold eventResult
    split
    · obtain ⟨-, -, -, -, -, -, -, hinputs, -⟩ := byteEvent_fields s (rxClass s.cfg f.rxByte) f.flagClr
      exact hinputs
    · split <;> rfl
  unfold edgeResult
  split
  · rfl
  · obtain ⟨-, -, -, -, -, -, hinputs, -⟩ := applyWr_fields (eventResult s f) (refreshOf f)
    exact hinputs.trans hevent

/-- A step takes one edge off the schedule (R49; log 2). -/
theorem inputs_of_step {s t : State} (h : step s = .next t) : t.inputs = s.inputs.tail := by
  obtain ⟨-, rfl⟩ := accepts_and_eq_of_step h
  rw [advance_inputs, edgeResult_inputs]

/-- Two schedules compared edge by edge are still so once the next edge is past. -/
theorem forall₂_tail {r : Edge → Edge → Prop} {es es' : List Edge} (h : List.Forall₂ r es es') :
    List.Forall₂ r es.tail es'.tail := by
  cases h with
  | nil => exact .nil
  | cons _ hrest => exact hrest

theorem observe_succ_of_next {s t : State} (n : Nat) (h : step s = .next t) :
    observe (n + 1) s =
      { sent := (if (edgeIn s).load then [txByte s] else []) ++ (observe n t).sent
        flags := flagOut t :: (observe n t).flags
        stop := (observe n t).stop } := by
  simp [observe, h]

/-- Where a machine stops, one whose step is the same is observed the same. -/
theorem observe_succ_eq_of_stop {s s' : State} (n : Nat) (hstop : ∀ t, step s ≠ .next t) (heq : step s' = step s) :
    observe (n + 1) s' = observe (n + 1) s := by
  cases h : step s with
  | next t => exact absurd h (hstop t)
  | fault r => simp [observe, heq, h]
  | refused r => simp [observe, heq, h]

/-- Settles O51, by induction on the number of edges: two machines that differ at most in the flag and the clears step
alike, and a load sends `tx_reg`, which they share. -/
theorem flagNeverReachesTheStream : Obligations.FlagNeverReachesTheStream := by
  intro n
  induction n with
  | zero => intros; exact ⟨rfl, rfl⟩
  | succ n ih =>
    intro s flag es h
    show (observe (n + 1) (withFlagAndInputs s flag es)).sent = (observe (n + 1) s).sent ∧
      (observe (n + 1) (withFlagAndInputs s flag es)).stop = (observe (n + 1) s).stop
    rcases stepsAlike_withFlagAndInputs h flag with ⟨t, flag', hs, hs'⟩ | ⟨hstop, heq⟩
    · have htail : List.Forall₂ (SameButClr t.cfg) t.inputs es.tail := by
        rw [configurationNeverChanges s t hs, inputs_of_step hs]
        exact forall₂_tail h
      obtain ⟨-, hload, -⟩ := edgeIn_sameButClr h flag
      obtain ⟨hsent, hend⟩ := ih t flag' es.tail htail
      rw [observe_succ_of_next n hs, observe_succ_of_next n hs', hload]
      exact ⟨congrArg (_ ++ ·) hsent, hend⟩
    · rw [observe_succ_eq_of_stop n hstop heq]
      exact ⟨rfl, rfl⟩

end Sys2Proof.Machine
end

section
/-! PROOFS. Reads of the buffer (20_memory.md section 2): a byte event reads the state before the edge (R30, R32), so a
refresh write reaches the events of later edges only (R33). -/

namespace Sys2Proof.Machine

/-- The byte that the multiplexer chooses is read before the refresh write of the edge (R30, R53). -/
theorem edgeResult_txReg_of_rxValid {s : State} {f : CycFields} (hrst : f.rst = false) (hrx : f.rxValid = true) :
    (edgeResult s f).txReg =
      if cursorFrom s (rxClass s.cfg f.rxByte) < s.cfg.valCount then readSlot s (cursorFrom s (rxClass s.cfg f.rxByte))
      else s.cfg.pad := by
  obtain ⟨-, htx, -⟩ := byteEvent_fields s (rxClass s.cfg f.rxByte) f.flagClr
  rw [edgeResult_of_not_rst hrst, applyWr_txReg, eventResult_of_rxValid hrx, htx]

/-- Settles O27: the edge's result takes `tx_reg` from the buffer before the edge, and then writes the slot. -/
theorem sameEdgeReadIsOld : Obligations.SameEdgeReadIsOld := by
  intro s f haccepts hrst hrx hwe haddr hlive
  refine ⟨edgeResult s f, ?_, ?_, ?_⟩
  · rw [exec_classify, guardEdge_next_iff]
    exact ⟨haccepts, rfl⟩
  · rw [edgeResult_txReg_of_rxValid hrst hrx, ← haddr, if_pos hlive]
  · rw [readSlot_edgeResult_of_not_rst hrst, if_pos ⟨hwe, rfl⟩]

/-- Settles O28: the first two clauses say what the step does to the buffer, at the slot written and at every other one;
the third is the byte multiplexer's choice at a live slot. -/
theorem refreshSeenByLaterEvents : Obligations.RefreshSeenByLaterEvents := by
  refine ⟨fun s t hstep hrst hwe => ?_, fun s t i hstep hrst hother => ?_, fun s t i hstep hrst hrx hi hlive => ?_⟩
  · obtain ⟨-, hbuf⟩ := bufferAfterEveryStep s t hstep
    rw [hbuf hrst, if_pos ⟨hwe, rfl⟩]
  · obtain ⟨-, hbuf⟩ := bufferAfterEveryStep s t hstep
    rw [hbuf hrst, if_neg fun ⟨hwe, haddr⟩ => hother ⟨hwe, haddr.symm⟩]
  · obtain ⟨-, rfl⟩ := accepts_and_eq_of_step hstep
    rw [advance_txReg, edgeResult_txReg_of_rxValid hrst hrx, ← hi, if_pos hlive]

end Sys2Proof.Machine
end

section
/-! PROOFS. The order of the stream (R27, R65): where a machine stands in it, and what an exchange sends. -/

namespace Sys2Proof.Machine

/-- The machine is about to send the stream's byte `j`, and the cursor has gone on from it as far as there are live
slots. -/
def AtStreamByte (s : State) (j : Nat) : Prop := s.txReg = streamByte s j ∧ s.cursor = min (j + 1) s.cfg.valCount

theorem apply_exch_of_ne_magic {s : State} {rx : Byte} (h : rx ≠ s.cfg.magic) :
    TraceEvent.apply s (.exch rx) = byteEvent s .advance false := by
  simp [TraceEvent.apply, rxClass, h]

/-- No byte event changes the buffer or the configuration, so none changes the stream (R6, R30). -/
theorem streamByte_byteEvent (s : State) (k : RxClass) (clr : Bool) :
    streamByte (byteEvent s k clr) = streamByte s := by
  funext j
  rw [streamByte, streamByte, byteEvent_cfg, readSlot_byteEvent]

/-- An ADVANCE fetches byte `j` of the stream where the cursor is `j`, or `VAL_COUNT` once the live slots are sent (R58,
R59). -/
theorem atStreamByte_advance {s : State} {j : Nat} (h : s.cursor = min j s.cfg.valCount) (clr : Bool) :
    AtStreamByte (byteEvent s .advance clr) j := by
  obtain ⟨hcursor, htx, -⟩ := byteEvent_fields s .advance clr
  unfold AtStreamByte
  rw [streamByte_byteEvent, byteEvent_cfg, hcursor, htx, cursorFrom, h, streamByte]
  by_cases hj : j < s.cfg.valCount
  · rw [Nat.min_eq_left hj.le, if_pos hj, if_pos hj, Nat.min_eq_left hj]
    exact ⟨rfl, rfl⟩
  · have hle : s.cfg.valCount ≤ j := Nat.le_of_not_lt hj
    rw [Nat.min_eq_right hle, if_neg (Nat.lt_irrefl _), if_neg (Nat.lt_irrefl _), if_neg hj,
      Nat.min_eq_right (Nat.le_succ_of_le hle)]
    exact ⟨rfl, rfl⟩

/-- A machine about to send byte `j` sends the stream from there on, one byte an exchange (R27). -/
theorem misoOf_of_atStreamByte {bs : List Byte} :
    ∀ {s : State} {j : Nat}, AtStreamByte s j → (∀ x ∈ bs, x ≠ s.cfg.magic) →
      misoOf s bs = (List.range' j bs.length).map (streamByte s) := by
  induction bs with
  | nil => intros; rfl
  | cons rx rest ih =>
    intro s j hat hbs
    obtain ⟨htx, hcursor⟩ := hat
    have hrest : misoOf (byteEvent s .advance false) rest = (List.range' (j + 1) rest.length).map (streamByte s) := by
      rw [← streamByte_byteEvent s .advance false]
      refine ih (atStreamByte_advance hcursor false) fun x hx => ?_
      rw [byteEvent_cfg]
      exact hbs x (List.mem_cons_of_mem _ hx)
    rw [misoOf, apply_exch_of_ne_magic (hbs rx List.mem_cons_self), hrest, txByte, htx, List.length_cons,
      List.range'_succ, List.map_cons]

/-- Settles O38: the first exchange from cursor 0 fetches byte 0, and the exchanges after it send the stream from
there. -/
theorem streamOrderFromCursorZero : Obligations.StreamOrderFromCursorZero := by
  intro s bs hcursor hbs
  cases bs with
  | nil => rfl
  | cons rx rest =>
    have hat : AtStreamByte (byteEvent s .advance false) 0 :=
      atStreamByte_advance (hcursor.trans (Nat.zero_min _).symm) false
    have hrest : ∀ x ∈ rest, x ≠ (byteEvent s .advance false).cfg.magic := by
      rw [byteEvent_cfg]
      exact fun x hx => hbs x (List.mem_cons_of_mem _ hx)
    rw [misoOf, apply_exch_of_ne_magic (hbs rx List.mem_cons_self), List.drop_one, List.tail_cons,
      misoOf_of_atStreamByte hat hrest, streamByte_byteEvent, List.length_cons, Nat.add_sub_cancel, List.range_eq_range']

end Sys2Proof.Machine
end

section
/-! PROOFS. The unused slots (R25): machines that differ at most in them step alike, so no observation tells them
apart. -/

namespace Sys2Proof.Machine

/-- The machine with another buffer, its draws numbered from another one, everything else the same. -/
def withBuffer (s : State) (m : Memory) (base : Nat) : State := { s with buf := m, bufDraw := base }

theorem exists_withBuffer_of_liveEq {s s' : State} (h : LiveEq s s') : ∃ m base, s' = withBuffer s m base := by
  obtain ⟨hcfg, hcursor, htx, hflag, hdraws, hinputs, hedges, hloaded, howed, -⟩ := h
  refine ⟨s'.buf, s'.bufDraw, ?_⟩
  rw [withBuffer, ← hcfg, ← hcursor, ← htx, ← hflag, ← hdraws, ← hinputs, ← hedges, ← hloaded, ← howed]

theorem liveEq_withBuffer {s : State} {m : Memory} {base : Nat}
    (h : ∀ i < s.cfg.valCount, readSlot (withBuffer s m base) i = readSlot s i) : LiveEq s (withBuffer s m base) :=
  ⟨rfl, rfl, rfl, rfl, rfl, rfl, rfl, rfl, rfl, h⟩

theorem readSlot_of_liveEq {s s' : State} (h : LiveEq s s') {i : Nat} (hi : i < s.cfg.valCount) :
    readSlot s' i = readSlot s i := by
  obtain ⟨-, -, -, -, -, -, -, -, -, hslots⟩ := h
  exact hslots i hi

theorem liveEq_latch {s s' : State} (h : LiveEq s s') (tx : Byte) (cur : Nat) (flag : Bool) :
    LiveEq (latch s tx cur flag) (latch s' tx cur flag) := by
  obtain ⟨m, base, rfl⟩ := exists_withBuffer_of_liveEq h
  exact liveEq_withBuffer (s := latch s tx cur flag) fun _ => readSlot_of_liveEq h

theorem liveEq_setFlag {s s' : State} (h : LiveEq s s') (v : Bool) : LiveEq (setFlag s v) (setFlag s' v) := by
  obtain ⟨m, base, rfl⟩ := exists_withBuffer_of_liveEq h
  exact liveEq_withBuffer (s := setFlag s v) fun _ => readSlot_of_liveEq h

theorem liveEq_advance {s s' : State} (h : LiveEq s s') (e : Edge) : LiveEq (advance s e) (advance s' e) := by
  obtain ⟨m, base, rfl⟩ := exists_withBuffer_of_liveEq h
  exact liveEq_withBuffer (s := advance s e) fun _ => readSlot_of_liveEq h

/-- A reset gives both buffers the same contents, of the same draws (R95). -/
theorem liveEq_resetState {s s' : State} (h : LiveEq s s') : LiveEq (resetState s) (resetState s') := by
  obtain ⟨m, base, rfl⟩ := exists_withBuffer_of_liveEq h
  exact liveEq_withBuffer (s := resetState s) fun _ _ => rfl

/-- The same refresh write of a live slot gives it the same byte; one of an unused slot reaches no live one (R31). -/
theorem liveEq_applyWr {s s' : State} (h : LiveEq s s') (wr : Option Refresh) :
    LiveEq (applyWr s wr) (applyWr s' wr) := by
  obtain ⟨m, base, rfl⟩ := exists_withBuffer_of_liveEq h
  cases wr with
  | none => exact h
  | some r =>
    refine liveEq_withBuffer (s := applyWr s (some r)) fun i hi => ?_
    show readSlot (applyWr (withBuffer s m base) (some r)) i = readSlot (applyWr s (some r)) i
    rw [readSlot_applyWr, readSlot_applyWr, slotAfter, slotAfter, readSlot_of_liveEq h hi]

/-- A byte event reads a live slot or none (R29, R53). -/
theorem liveEq_byteEvent {s s' : State} (h : LiveEq s s') (k : RxClass) (clr : Bool) :
    LiveEq (byteEvent s k clr) (byteEvent s' k clr) := by
  obtain ⟨m, base, rfl⟩ := exists_withBuffer_of_liveEq h
  have hfrom : cursorFrom (withBuffer s m base) k = cursorFrom s k := by cases k <;> rfl
  unfold byteEvent
  rw [hfrom]
  by_cases hlive : cursorFrom s k < s.cfg.valCount
  · rw [if_pos hlive, if_pos (by exact hlive), readSlot_of_liveEq h hlive]
    exact liveEq_latch h _ _ _
  · rw [if_neg hlive, if_neg (by exact hlive)]
    exact liveEq_latch h _ _ _

theorem liveEq_resultState {s s' : State} (h : LiveEq s s') (i : Instr) :
    LiveEq (resultState s i) (resultState s' i) := by
  cases i with
  | reset wr => exact liveEq_resetState h
  | resync clr wr => exact liveEq_applyWr (liveEq_byteEvent h .resync clr) wr
  | advanceEmit rx clr wr => exact liveEq_applyWr (liveEq_byteEvent h .advance clr) wr
  | advancePad rx clr wr => exact liveEq_applyWr (liveEq_byteEvent h .advance clr) wr
  | flagClr wr => exact liveEq_applyWr (liveEq_setFlag h false) wr
  | bufWr r => exact liveEq_applyWr h (some r)
  | idle => exact h

/-- Two outcomes that differ at most in the unused slots: next states that do, or the same stop. -/
def OutcomesLiveEq (o o' : Host.Outcome State Fault Refusal) : Prop :=
  (∃ t t', o = .next t ∧ o' = .next t' ∧ LiveEq t t') ∨ ((∀ t, o ≠ .next t) ∧ o' = o)

/-- The guard of an edge does not look at the buffer. -/
theorem guardEdge_liveEq {s s' t t' : State} (h : LiveEq s s') (ht : LiveEq t t') (wr : Option Refresh) :
    OutcomesLiveEq (guardEdge s wr t) (guardEdge s' wr t') := by
  obtain ⟨m, base, rfl⟩ := exists_withBuffer_of_liveEq h
  have hguard : guardEdge (withBuffer s m base) wr t' = guardEdge s wr t' := rfl
  rw [hguard]
  rcases guardEdge_cases s wr with hnext | ⟨r, hrefused⟩
  · exact .inl ⟨t, t', hnext t, hnext t', ht⟩
  · rw [hrefused, hrefused]
    exact .inr ⟨nofun, rfl⟩

/-- The end of an edge looks at the schedule and the deadline only, which the two machines share. -/
theorem finishEdge_liveEq {s s' : State} {o o' : Host.Outcome State Fault Refusal} (h : LiveEq s s')
    (ho : OutcomesLiveEq o o') : OutcomesLiveEq (finishEdge s o) (finishEdge s' o') := by
  obtain ⟨m, base, rfl⟩ := exists_withBuffer_of_liveEq h
  have hfinish : finishEdge (withBuffer s m base) o' = finishEdge s o' := rfl
  rw [hfinish]
  rcases ho with ⟨t, t', rfl, rfl, ht⟩ | ⟨hstop, rfl⟩
  · cases hlate : late s (edgeIn s) with
    | true => exact .inr ⟨by simp [finishEdge, hlate], by simp [finishEdge, hlate]⟩
    | false =>
      exact .inl ⟨_, _, by simp [finishEdge, hlate], by simp [finishEdge, hlate], liveEq_advance ht (edgeIn s)⟩
  · refine .inr ⟨fun u hu => ?_, rfl⟩
    obtain ⟨t, ht, -⟩ := finishEdge_next_iff.1 hu
    exact hstop t ht

/-- Both machines fetch the same instruction, or stop alike. -/
theorem step_liveEq {s s' : State} (h : LiveEq s s') : OutcomesLiveEq (step s) (step s') := by
  have hfetch : fetch s' = fetch s := by
    obtain ⟨m, base, rfl⟩ := exists_withBuffer_of_liveEq h
    rfl
  unfold step
  rw [hfetch]
  cases fetch s with
  | error r => exact .inr ⟨nofun, rfl⟩
  | ok i =>
    refine finishEdge_liveEq h ?_
    rw [exec_eq_guardEdge, exec_eq_guardEdge]
    exact guardEdge_liveEq h (liveEq_resultState h i) (refreshWrite i)

/-- The byte a load sends and the flag are registers, which the two machines share (R14, R16). -/
theorem ports_of_liveEq {s s' : State} (h : LiveEq s s') :
    edgeIn s' = edgeIn s ∧ txByte s' = txByte s ∧ flagOut s' = flagOut s := by
  obtain ⟨m, base, rfl⟩ := exists_withBuffer_of_liveEq h
  exact ⟨rfl, rfl, rfl⟩

/-- Settles O50, by induction on the number of edges: the two machines step alike, and what an edge shows of them is
registers that they share. -/
theorem unusedSlotsAreUnobservable : Obligations.UnusedSlotsAreUnobservable := by
  intro n
  induction n with
  | zero => intros; rfl
  | succ n ih =>
    intro s s' h
    rcases step_liveEq h with ⟨t, t', hs, hs', ht⟩ | ⟨hstop, heq⟩
    · obtain ⟨hedge, htx, -⟩ := ports_of_liveEq h
      obtain ⟨-, -, hflag⟩ := ports_of_liveEq ht
      rw [observe_succ_of_next n hs, observe_succ_of_next n hs', hedge, htx, hflag, ih t t' ht]
    · exact observe_succ_eq_of_stop n hstop heq

end Sys2Proof.Machine
end

section
/-! PROOFS. The instruction encoding (30_encoding.md): the fields of an instruction, and what fields decode to. -/

namespace Sys2Proof.Machine

@[simp] theorem withRefresh_rst (f : CycFields) (wr : Option Refresh) : (f.withRefresh wr).rst = f.rst := by
  cases wr <;> rfl

@[simp] theorem withRefresh_rxValid (f : CycFields) (wr : Option Refresh) :
    (f.withRefresh wr).rxValid = f.rxValid := by
  cases wr <;> rfl

@[simp] theorem withRefresh_rxByte (f : CycFields) (wr : Option Refresh) : (f.withRefresh wr).rxByte = f.rxByte := by
  cases wr <;> rfl

@[simp] theorem withRefresh_flagClr (f : CycFields) (wr : Option Refresh) :
    (f.withRefresh wr).flagClr = f.flagClr := by
  cases wr <;> rfl

/-- The write port carries the refresh write that drives it (R42, R44). -/
theorem refreshOf_withRefresh {f : CycFields} (h : f.bufWe = false) (wr : Option Refresh) :
    refreshOf (f.withRefresh wr) = wr := by
  cases wr with
  | none => simp [CycFields.withRefresh, refreshOf, h]
  | some r => rfl

theorem rxClass_eq_resync_iff {c : Config} {rx : Byte} : rxClass c rx = .resync ↔ rx = c.magic := by
  simp [rxClass]

theorem rxClass_eq_advance_iff {c : Config} {rx : Byte} : rxClass c rx = .advance ↔ rx ≠ c.magic := by
  simp [rxClass]

/-- Settles O5: the detector is one equality test, and the reference configuration's `MAGIC` is 0xF0. -/
theorem rxBytesSplitIntoTwoClasses : Obligations.RxBytesSplitIntoTwoClasses :=
  ⟨fun _ _ => ⟨rxClass_eq_resync_iff, rxClass_eq_advance_iff⟩, fun _ => rxClass_eq_resync_iff⟩

theorem classify_of_rst {c : Config} {f : CycFields} (live : Bool) (h : f.rst = true) :
    classify c live f = .reset (refreshOf f) := by
  simp [classify, h]

theorem classify_of_resync {c : Config} {f : CycFields} (live : Bool) (hrst : f.rst = false) (hrx : f.rxValid = true)
    (hclass : rxClass c f.rxByte = .resync) : classify c live f = .resync f.flagClr (refreshOf f) := by
  simp [classify, hrst, hrx, hclass]

/-- The state's case, not the word, tells ADVANCE.EMIT from ADVANCE.PAD (R41). -/
theorem classify_of_advance {c : Config} {f : CycFields} (live : Bool) (hrst : f.rst = false) (hrx : f.rxValid = true)
    (hclass : rxClass c f.rxByte = .advance) :
    classify c live f =
      if live then .advanceEmit f.rxByte f.flagClr (refreshOf f) else .advancePad f.rxByte f.flagClr (refreshOf f) := by
  cases live <;> simp [classify, hrst, hrx, hclass]

theorem classify_of_flagClr {c : Config} {f : CycFields} (live : Bool) (hrst : f.rst = false)
    (hrx : f.rxValid = false) (hclr : f.flagClr = true) : classify c live f = .flagClr (refreshOf f) := by
  simp [classify, hrst, hrx, hclr]

theorem classify_of_refresh {c : Config} {f : CycFields} (live : Bool) (hrst : f.rst = false)
    (hrx : f.rxValid = false) (hclr : f.flagClr = false) :
    classify c live f = ((refreshOf f).map Instr.bufWr).getD .idle := by
  simp only [classify, hrst, hrx, hclr, Bool.false_eq_true, if_false]
  cases refreshOf f <;> rfl

/-- The fields an instruction stands for are classified as it, in a case that fits it (R41, R42). -/
theorem classify_fields {c : Config} {i : Instr} {live : Bool} (hwf : i.wf c = true) (hcase : i.caseOk live = true) :
    classify c live (i.fields c) = i := by
  cases i with
  | reset wr =>
    rw [Instr.fields, classify_of_rst live (withRefresh_rst _ wr), refreshOf_withRefresh rfl]
  | resync clr wr =>
    rw [Instr.fields, classify_of_resync live (withRefresh_rst _ wr) (withRefresh_rxValid _ wr)
      (by simp [rxClass_eq_resync_iff]), withRefresh_flagClr, refreshOf_withRefresh rfl]
  | advanceEmit rx clr wr =>
    obtain ⟨hne, -⟩ : rx ≠ c.magic ∧ wrWf c wr = true := by simpa [Instr.wf] using hwf
    have hemit : live = true := hcase
    rw [Instr.fields, classify_of_advance live (withRefresh_rst _ wr) (withRefresh_rxValid _ wr)
      (by simpa [rxClass_eq_advance_iff] using hne), hemit, if_pos rfl, withRefresh_rxByte, withRefresh_flagClr,
      refreshOf_withRefresh rfl]
  | advancePad rx clr wr =>
    obtain ⟨hne, -⟩ : rx ≠ c.magic ∧ wrWf c wr = true := by simpa [Instr.wf] using hwf
    have hpad : live = false := by simpa [Instr.caseOk] using hcase
    rw [Instr.fields, classify_of_advance live (withRefresh_rst _ wr) (withRefresh_rxValid _ wr)
      (by simpa [rxClass_eq_advance_iff] using hne), hpad, if_neg Bool.false_ne_true, withRefresh_rxByte,
      withRefresh_flagClr, refreshOf_withRefresh rfl]
  | flagClr wr =>
    rw [Instr.fields, classify_of_flagClr live (withRefresh_rst _ wr) (withRefresh_rxValid _ wr)
      (withRefresh_flagClr _ wr), refreshOf_withRefresh rfl]
  | bufWr r =>
    rw [Instr.fields, classify_of_refresh live (withRefresh_rst _ (some r)) (withRefresh_rxValid _ (some r))
      (withRefresh_flagClr _ (some r)), refreshOf_withRefresh rfl]
    rfl
  | idle => rfl

/-- Settles O3: unpacking a packed word gives its fields back, and the fields of an instruction are classified as it. -/
theorem decodeOfEncode : Obligations.DecodeOfEncode := by
  intro c i live hc hwf hcase
  have haddr := waddr_fields hwf
  rw [decode_ok_iff, encode, unpack_pack hc haddr, classify_fields hwf hcase]
  exact ⟨toNat_pack_lt hc haddr, rfl⟩

/-- A refresh write whose index fits `buf_waddr` is a well-formed one. -/
theorem wrWf_refreshOf {c : Config} {f : CycFields} (h : f.bufWaddr < 2 ^ c.addrW) : wrWf c (refreshOf f) = true := by
  cases hwe : f.bufWe <;> simp [refreshOf, hwe, wrWf, Refresh.wf, h]

/-- Fields that fit their ports are some well-formed instruction, in the case the state is in (R41, R45). -/
theorem classify_wf {c : Config} {f : CycFields} (live : Bool) (h : f.bufWaddr < 2 ^ c.addrW) :
    (classify c live f).wf c = true ∧ (classify c live f).caseOk live = true := by
  have hwr := wrWf_refreshOf h
  cases hrst : f.rst with
  | true => rw [classify_of_rst live hrst]; exact ⟨hwr, rfl⟩
  | false =>
    cases hrx : f.rxValid with
    | true =>
      cases hclass : rxClass c f.rxByte with
      | resync => rw [classify_of_resync live hrst hrx hclass]; exact ⟨hwr, rfl⟩
      | advance =>
        have hne := rxClass_eq_advance_iff.1 hclass
        rw [classify_of_advance live hrst hrx hclass]
        cases live <;> simp [Instr.wf, Instr.caseOk, hne, hwr]
    | false =>
      cases hclr : f.flagClr with
      | true => rw [classify_of_flagClr live hrst hrx hclr]; exact ⟨hwr, rfl⟩
      | false =>
        rw [classify_of_refresh live hrst hrx hclr]
        cases hr : refreshOf f with
        | none => exact ⟨rfl, rfl⟩
        | some r => rw [hr] at hwr; exact ⟨by simpa [wrWf, Instr.wf] using hwr, rfl⟩

/-- The index of a CYC word is `ADDR_W` bits of it (R42). -/
theorem unpack_waddr_lt (c : Config) (w : CycWord) : (unpack c w).bufWaddr < 2 ^ c.addrW :=
  Nat.mod_lt _ (Nat.two_pow_pos _)

/-- Settles O4: the decoder looks at the width alone, and the fields of a word fit their ports. -/
theorem everyCycWordDecodes : Obligations.EveryCycWordDecodes := by
  intro c live w _
  refine ⟨fun hw => ⟨classify c live (unpack c w), if_pos hw, classify_wf live (unpack_waddr_lt c w)⟩, fun hw => ?_⟩
  exact if_neg (Nat.not_lt.2 hw)

/-- Settles O8: `ADDR_W` is the width of one sampled port, and the other ports have 20 bits together. -/
theorem cycWidthIsSumOfPorts : Obligations.CycWidthIsSumOfPorts := by
  refine ⟨fun c => ?_, by decide⟩
  simp only [cycPorts, List.map_cons, List.map_nil, List.sum_cons, List.sum_nil, Port.width, cycWidth]
  omega

/-- Settles O2: each word evaluates. -/
theorem sampleWordsDecode : Obligations.SampleWordsDecode :=
  ⟨rfl, rfl, rfl, rfl, rfl, rfl, rfl, rfl, rfl, rfl⟩

@[simp] theorem edgeIn_withFetchWord (s : State) (nbits w : Nat) :
    edgeIn (s.withFetchWord nbits w) = { cyc := BitVec.ofNat 28 (w % 2 ^ nbits) } := rfl

/-- A step whose word decodes to `i` runs `i` and ends the edge. -/
theorem step_of_fetch_ok {s : State} {i : Instr} (h : fetch s = .ok i) : step s = finishEdge s (exec i s) := by
  rw [step, h]

theorem finishEdge_next_of_not_late {s : State} (h : late s (edgeIn s) = false) (t : State) :
    finishEdge s (.next t) = .next (advance t (edgeIn s)) := by
  simp [finishEdge, h]

/-- Settles O1: under a well-formed configuration the fetch is the decoder, and the end of the edge lets a refusal
stand. -/
theorem stepRunsDecodedInstruction : Obligations.StepRunsDecodedInstruction := by
  refine ⟨fun s i hc hdecode => ?_, edgeIn_withFetchWord⟩
  have hstep := step_of_fetch_ok (fetch_ok_iff.2 ⟨hc, hdecode⟩)
  refine ⟨hstep, fun t ht hlate => ?_, fun r hr => ?_⟩
  · rw [hstep, ht, finishEdge_next_of_not_late hlate]
  · rw [hstep, hr]; rfl

end Sys2Proof.Machine
end

section
/-! PROOFS. The edge function of R43: `exec` of any fields is it, every legal edge completes, an edge is the actions of
the transaction view (R48), and ignored inputs change no step (R44). -/

namespace Sys2Proof.Machine

/-- Where nothing refuses an edge, its fields run to the edge's result (R43). -/
theorem exec_classify_of_accepts {s : State} {f : CycFields} (h : Accepts s (refreshOf f)) (live : Bool) :
    exec (classify s.cfg live f) s = .next (edgeResult s f) := by
  rw [exec_classify, guardEdge_next_iff]
  exact ⟨h, rfl⟩

/-- A CYC word that nothing refuses and whose load is in time steps to its edge's result, moved on by the
environment. -/
theorem step_of_accepts {s : State} (hw : (edgeIn s).cyc.toNat < 2 ^ cycWidth s.cfg)
    (ha : Accepts s (refreshOf (fieldsIn s))) (hlate : late s (edgeIn s) = false) :
    step s = .next (advance (edgeResult s (fieldsIn s)) (edgeIn s)) := by
  rw [step_of_cycWord (failed_of_wf ha.1) hw, guardEdge_next_iff.2 ⟨ha, rfl⟩, finishEdge_next_of_not_late hlate]

/-- Settles O13: such an edge is the one of `step_of_accepts`. -/
theorem everyLegalEdgeCompletes : Obligations.EveryLegalEdgeCompletes :=
  fun _ hw ha hlate => ⟨_, step_of_accepts hw ha hlate⟩

theorem refreshOf_of_bufWe {f : CycFields} (h : f.bufWe = true) : refreshOf f = some ⟨f.bufWaddr, f.bufWdata⟩ :=
  if_pos h

theorem refreshOf_of_not_bufWe {f : CycFields} (h : f.bufWe = false) : refreshOf f = none := by
  simp [refreshOf, h]

/-- `c0` as R43 writes it. -/
theorem cursorFrom_rxClass (s : State) (rx : Byte) :
    cursorFrom s (rxClass s.cfg rx) = if rx = s.cfg.magic then 0 else s.cursor := by
  unfold rxClass
  split <;> rfl

/-- The events of an edge without reset end as R43's middle lines say. -/
theorem eventResult_eq (s : State) (f : CycFields) :
    eventResult s f =
      let c0 := if f.rxByte = s.cfg.magic then 0 else s.cursor
      if f.rxValid = true then
        { s with
          txReg := if c0 < s.cfg.valCount then readSlot s c0 else s.cfg.pad
          cursor := if c0 < s.cfg.valCount then c0 + 1 else c0
          rxFlag := true }
      else if f.flagClr = true then { s with rxFlag := false }
      else s := by
  simp only [eventResult, byteEvent, cursorFrom_rxClass]
  generalize (if f.rxByte = s.cfg.magic then 0 else s.cursor) = c0
  by_cases hlive : c0 < s.cfg.valCount
  · simp only [if_pos hlive]; rfl
  · simp only [if_neg hlive]; rfl

/-- An edge that R43 does not refuse ends in the edge's result. -/
theorem edgeSpec_of_accepts {s : State} {f : CycFields} (h : Accepts s (refreshOf f)) :
    edgeSpec s f = .next (edgeResult s f) := by
  obtain ⟨-, hwr⟩ := h
  have hport : ¬ (f.bufWe = true ∧ s.cfg.hasRefresh = false) := fun ⟨hwe, hport⟩ => by
    obtain ⟨hpresent, -⟩ := hwr _ (refreshOf_of_bufWe hwe)
    exact Bool.false_ne_true (hport.symm.trans hpresent)
  have haddr : ¬ (f.bufWe = true ∧ s.cfg.bufCap ≤ f.bufWaddr) := fun ⟨hwe, haddr⟩ => by
    obtain ⟨-, hlt⟩ := hwr _ (refreshOf_of_bufWe hwe)
    exact Nat.not_le.2 hlt haddr
  rw [edgeSpec, if_neg hport, if_neg haddr, edgeResult, eventResult_eq]
  cases f.rst with
  | true => rfl
  | false =>
    cases hwe : f.bufWe with
    | true => rw [refreshOf_of_bufWe hwe]; rfl
    | false => rw [refreshOf_of_not_bufWe hwe]; rfl

/-- The guard and the edge function check the port first, then the index, and then end in the edge's result. -/
theorem guardEdge_eq_edgeSpec {s : State} (hc : s.cfg.wf = true) (f : CycFields) :
    guardEdge s (refreshOf f) (edgeResult s f) = edgeSpec s f := by
  by_cases ha : Accepts s (refreshOf f)
  · rw [edgeSpec_of_accepts ha, guardEdge_next_iff.2 ⟨ha, rfl⟩]
  · cases hwe : f.bufWe with
    | false => exact absurd ⟨hc, by simp [refreshOf_of_not_bufWe hwe]⟩ ha
    | true =>
      unfold guardEdge edgeSpec
      rw [failed_of_wf hc, refreshOf_of_bufWe hwe]
      by_cases hport : s.cfg.hasRefresh = false
      · simp [hwe, hport]
      · have haddr : s.cfg.bufCap ≤ f.bufWaddr := by
          simpa [Accepts, hc, refreshOf_of_bufWe hwe, hport] using ha
        simp [hwe, hport, haddr]

/-- Settles O7: whatever the fields decode to, `exec` is the edge's guard and result, which is R43's edge function. -/
theorem edgeFunctionRefinement : Obligations.EdgeFunctionRefinement := by
  refine ⟨fun s hc hw => ?_, fun s f hc => ?_⟩
  · rw [step_of_cycWord (failed_of_wf hc) hw, guardEdge_eq_edgeSpec hc]
  · rw [exec_classify, guardEdge_eq_edgeSpec hc]

/-- A byte event sets the flag whatever it was, so a clear before it changes nothing (R56, R86). -/
theorem byteEvent_setFlag (s : State) (v : Bool) (k : RxClass) (clr clr' : Bool) :
    byteEvent (setFlag s v) k clr' = byteEvent s k clr := by
  cases k <;> rfl

theorem runEvents_append (evs evs' : List TraceEvent) :
    ∀ s : State, runEvents s (evs ++ evs') = runEvents (runEvents s evs) evs' := by
  induction evs with
  | nil => intro s; rfl
  | cons ev evs ih => intro s; exact ih (ev.apply s)

/-- The events of an edge without reset are CLR and then EXCH, each if the edge has it (R48). -/
theorem runEvents_clr_exch (s : State) (f : CycFields) :
    runEvents s ((if f.flagClr then [.clr] else []) ++ (if f.rxValid then [.exch f.rxByte] else [])) =
      eventResult s f := by
  unfold eventResult
  cases f.flagClr with
  | true =>
    cases f.rxValid with
    | true => exact byteEvent_setFlag s false _ true false
    | false => rfl
  | false => cases f.rxValid <;> rfl

/-- The refresh write of an edge is its action WR (R31, R48). -/
theorem runEvents_wr (s : State) (f : CycFields) :
    runEvents s (if f.bufWe then [.wr f.bufWaddr f.bufWdata] else []) = applyWr s (refreshOf f) := by
  cases hwe : f.bufWe with
  | true => rw [refreshOf_of_bufWe hwe]; rfl
  | false => rw [refreshOf_of_not_bufWe hwe]; rfl

theorem runEvents_edgeActions {s : State} {f : CycFields} (h : f.rst = false) :
    runEvents s (edgeActions f) = edgeResult s f := by
  rw [edgeActions, runEvents_append, runEvents_clr_exch, runEvents_wr, edgeResult_of_not_rst h]

/-- Settles O39: an accepted edge ends in its result, which is that of its actions one after the other. -/
theorem edgeEqualsItsActions : Obligations.EdgeEqualsItsActions := by
  intro s f ha
  rw [exec_classify_of_accepts ha]
  refine ⟨fun hrst => ?_, fun hrst => ?_⟩
  · rw [runEvents_edgeActions hrst]
  · rw [edgeResult_of_rst hrst]; rfl

/-- The machine with another schedule, everything else the same. -/
def withInputs (s : State) (es : List Edge) : State := { s with inputs := es }

/-- Two CYC words' fields that differ at most in inputs that R44 ignores: `rx_byte` without `rx_valid`, or the write
fields without `buf_we`. -/
def DifferInIgnored (f f' : CycFields) : Prop :=
  (f.rxValid = false ∧ ∃ b, f' = { f with rxByte := b }) ∨
    (f.bufWe = false ∧ ∃ a d, f' = { f with bufWaddr := a, bufWdata := d })

theorem rxValid_of_differInIgnored {f f' : CycFields} (h : DifferInIgnored f f') : f'.rxValid = f.rxValid := by
  rcases h with ⟨-, b, rfl⟩ | ⟨-, a, d, rfl⟩ <;> rfl

/-- The decoder reads `rx_byte` under `rx_valid` alone, and the write fields under `buf_we` alone. -/
theorem classify_of_differInIgnored {c : Config} {f f' : CycFields} (live : Bool) (h : DifferInIgnored f f') :
    classify c live f' = classify c live f := by
  rcases h with ⟨hrx, b, rfl⟩ | ⟨hwe, a, d, rfl⟩
  · simp only [classify, hrx, Bool.false_eq_true, if_false]
    rfl
  · have hwr : refreshOf { f with bufWaddr := a, bufWdata := d } = refreshOf f := by simp [refreshOf, hwe]
    simp only [classify, hwr]

theorem byteEvent_withInputs (s : State) (es : List Edge) (k : RxClass) (clr : Bool) :
    byteEvent (withInputs s es) k clr = withInputs (byteEvent s k clr) es :=
  (byteEvent_withFlagAndInputs s s.rxFlag es k clr clr).trans
    (congrArg (withFlagAndInputs (byteEvent s k clr) · es) (byteEvent_rxFlag s k clr).symm)

theorem applyWr_withInputs (s : State) (es : List Edge) (wr : Option Refresh) :
    applyWr (withInputs s es) wr = withInputs (applyWr s wr) es := by
  cases wr <;> rfl

/-- No instruction looks at the schedule (log 2). -/
theorem resultState_withInputs (s : State) (es : List Edge) (i : Instr) :
    resultState (withInputs s es) i = withInputs (resultState s i) es := by
  cases i with
  | reset wr => rfl
  | resync clr wr => rw [resultState, byteEvent_withInputs, applyWr_withInputs]; rfl
  | advanceEmit rx clr wr => rw [resultState, byteEvent_withInputs, applyWr_withInputs]; rfl
  | advancePad rx clr wr => rw [resultState, byteEvent_withInputs, applyWr_withInputs]; rfl
  | flagClr wr => exact applyWr_withInputs (setFlag s false) es wr
  | bufWr r => rfl
  | idle => rfl

/-- The step at a CYC word, with the schedule's part of it apart. -/
theorem step_withInputs_cons {s : State} {e : Edge} (hc : s.cfg.wf = true) (hw : e.cyc.toNat < 2 ^ cycWidth s.cfg)
    (es : List Edge) :
    let i := classify s.cfg (live s) (unpack s.cfg e.cyc)
    step (withInputs s (e :: es)) =
      finishEdge (withInputs s (e :: es)) (guardEdge s (refreshWrite i) (withInputs (resultState s i) (e :: es))) := by
  intro i
  have hfetch : fetch (withInputs s (e :: es)) = .ok i := fetch_ok_iff.2 ⟨hc, if_pos hw⟩
  rw [step_of_fetch_ok hfetch, exec_eq_guardEdge, resultState_withInputs]
  rfl

/-- The environment's side of an edge looks at the marks of the edge, and at its word for the exchange's own event
only. -/
theorem finishEdge_withInputs_cons {s t : State} {e e' : Edge} (hload : e'.load = e.load)
    (hdropped : e'.dropped = e.dropped) (hown : ownEvent t.cfg e' = ownEvent t.cfg e) (es : List Edge) :
    finishEdge (withInputs s (e' :: es)) (.next (withInputs t (e' :: es))) =
      finishEdge (withInputs s (e :: es)) (.next (withInputs t (e :: es))) := by
  simp [finishEdge, late, advance, withInputs, edgeIn, hload, hdropped, hown]

/-- Settles O6: the two words decode to one instruction, and the environment's side of the two edges is the same. -/
theorem ignoredInputsChangeNothing : Obligations.IgnoredInputsChangeNothing := by
  intro s e e' es hw hw' hload hdropped hextra (hfields : DifferInIgnored _ _)
  show step (withInputs s (e' :: es)) = step (withInputs s (e :: es))
  cases hc : s.cfg.wf with
  | false =>
    obtain ⟨cond, hcond⟩ := exists_failed_of_not_wf hc
    exact (step_of_failed (s := withInputs s (e' :: es)) hcond).trans
      (step_of_failed (s := withInputs s (e :: es)) hcond).symm
  | true =>
    rw [step_withInputs_cons hc hw', step_withInputs_cons hc hw, classify_of_differInIgnored _ hfields]
    generalize classify s.cfg (live s) (unpack s.cfg e.cyc) = i
    rcases guardEdge_cases s (refreshWrite i) with hnext | ⟨r, hrefused⟩
    · have hown : ownEvent (resultState s i).cfg e' = ownEvent (resultState s i).cfg e := by
        rw [resultState_cfg, ownEvent, ownEvent, hextra, rxValid_of_differInIgnored hfields]
      rw [hnext, hnext, finishEdge_withInputs_cons hload hdropped hown]
    · rw [hrefused, hrefused]
      rfl

end Sys2Proof.Machine
end

section
/-! PROOFS. Runs over given edges: how they are put together, and that edges that carry exchanges refine the transaction
view (R46, R47, R48). -/

namespace Sys2Proof.Machine

/-- The machine `t` stands in the stream where `s` does: it differs from it at most in the flag, in the contents of the
unused slots and outside the block's own state. -/
structure SameStream (s t : State) : Prop where
  cfg : t.cfg = s.cfg
  cursor : t.cursor = s.cursor
  txReg : t.txReg = s.txReg
  slots : ∀ i < s.cfg.valCount, readSlot t i = readSlot s i

theorem SameStream.refl (s : State) : SameStream s s := ⟨rfl, rfl, rfl, fun _ _ => rfl⟩

theorem SameStream.trans {s t u : State} (h : SameStream s t) (h' : SameStream t u) : SameStream s u :=
  ⟨h'.cfg.trans h.cfg, h'.cursor.trans h.cursor, h'.txReg.trans h.txReg,
    fun i hi => (h'.slots i (by rwa [h.cfg])).trans (h.slots i hi)⟩

/-- A byte event takes two machines from one place in the stream to one place (R53, R55). -/
theorem SameStream.byteEvent {s t : State} (h : SameStream s t) (k : RxClass) (clr clr' : Bool) :
    SameStream (byteEvent s k clr) (byteEvent t k clr') := by
  obtain ⟨hcursor, htx, -⟩ := byteEvent_fields s k clr
  obtain ⟨hcursor', htx', -⟩ := byteEvent_fields t k clr'
  have hfrom : cursorFrom t k = cursorFrom s k := by
    cases k with
    | resync => rfl
    | advance => exact h.cursor
  rw [hfrom, h.cfg] at hcursor' htx'
  refine ⟨by simp [h.cfg], hcursor'.trans hcursor.symm, htx'.trans (Eq.trans ?_ htx.symm), fun i hi => ?_⟩
  · split
    · exact h.slots _ ‹_›
    · rfl
  · rw [byteEvent_cfg] at hi
    rw [readSlot_byteEvent, readSlot_byteEvent, h.slots i hi]

theorem SameStream.exch {s t : State} (h : SameStream s t) (rx : Byte) :
    SameStream (TraceEvent.apply s (.exch rx)) (TraceEvent.apply t (.exch rx)) := by
  rw [TraceEvent.apply, TraceEvent.apply, h.cfg]
  exact h.byteEvent _ _ _

/-- Exchanges from one place in the stream receive the same bytes (R48). -/
theorem SameStream.misoOf_eq {bytes : List Byte} :
    ∀ {s t : State}, SameStream s t → misoOf t bytes = misoOf s bytes := by
  induction bytes with
  | nil => intros; rfl
  | cons rx rest ih =>
    intro s t h
    rw [misoOf, misoOf, ih (h.exch rx), txByte, txByte, h.txReg]

/-- Exchanges from one place in the stream end in one place of it (R48). -/
theorem SameStream.afterExchanges {bytes : List Byte} :
    ∀ {s t : State}, SameStream s t → SameStream (afterExchanges s bytes) (afterExchanges t bytes) := by
  induction bytes with
  | nil => intro s t h; exact h
  | cons rx rest ih => intro s t h; exact ih (h.exch rx)

theorem afterExchanges_cfg {bytes : List Byte} : ∀ s : State, (afterExchanges s bytes).cfg = s.cfg := by
  induction bytes with
  | nil => intro s; rfl
  | cons rx rest ih => intro s; exact (ih _).trans (byteEvent_cfg s _ _)

theorem readSlot_afterExchanges {bytes : List Byte} :
    ∀ (s : State) (i : Nat), readSlot (afterExchanges s bytes) i = readSlot s i := by
  induction bytes with
  | nil => intros; rfl
  | cons rx rest ih =>
    intro s i
    exact (ih _ i).trans (readSlot_byteEvent s _ _ i)

/-- What one edge sends: `tx_reg` from before it at a load, and nothing otherwise (R15, R47). -/
def edgeSends (s : State) (e : Edge) : List Byte := if e.load then [s.txReg] else []

/-- The machine runs over some edges, the next ones of its schedule, and sends some bytes on the way. -/
inductive RunsOver : State → List Edge → List Byte → State → Prop
  | nil (s : State) : RunsOver s [] [] s
  | cons {s t u : State} {e : Edge} {es : List Edge} {sent : List Byte} (hin : s.inputs = e :: t.inputs)
      (hstep : step s = .next t) (hrest : RunsOver t es sent u) : RunsOver s (e :: es) (edgeSends s e ++ sent) u

theorem RunsOver.append {s t u : State} {es es' : List Edge} {sent sent' : List Byte} (h : RunsOver s es sent t)
    (h' : RunsOver t es' sent' u) : RunsOver s (es ++ es') (sent ++ sent') u := by
  induction h with
  | nil => exact h'
  | cons hin hstep _ ih =>
    rw [List.append_assoc]
    exact .cons hin hstep (ih h')

theorem RunsOver.inputs_eq {s t : State} {es : List Edge} {sent : List Byte} (h : RunsOver s es sent t) :
    s.inputs = es ++ t.inputs := by
  induction h with
  | nil => rfl
  | cons hin _ _ ih => rw [hin, ih, List.cons_append]

theorem run_succ_of_next {s t : State} (n : Nat) (h : step s = .next t) : core.run (n + 1) s = core.run n t := by
  have hcore : core.step s = .next t := h
  simp only [Host.Core.run, hcore]

theorem RunsOver.run_eq {s t : State} {es : List Edge} {sent : List Byte} (h : RunsOver s es sent t) :
    core.run es.length s = .next t := by
  induction h with
  | nil => rfl
  | cons _ hstep _ ih => exact (run_succ_of_next _ hstep).trans ih

theorem edgeIn_of_inputs {s : State} {e : Edge} {es : List Edge} (h : s.inputs = e :: es) : edgeIn s = e := by
  simp [edgeIn, h]

/-- What is observed of a run is that it does not stop, and the bytes it sends (R105). -/
theorem RunsOver.observe_eq {s t : State} {es : List Edge} {sent : List Byte} (h : RunsOver s es sent t) :
    (observe es.length s).stop = none ∧ (observe es.length s).sent = sent := by
  induction h with
  | nil => exact ⟨rfl, rfl⟩
  | cons hin hstep _ ih =>
    obtain ⟨hstop, hsent⟩ := ih
    rw [List.length_cons, observe_succ_of_next _ hstep, edgeIn_of_inputs hin, hsent]
    exact ⟨hstop, rfl⟩

theorem eventResult_sameOutside (s : State) (f : CycFields) : SameOutside s (eventResult s f) := by
  unfold eventResult
  split
  · obtain ⟨-, -, -, -, houtside⟩ := byteEvent_fields s (rxClass s.cfg f.rxByte) f.flagClr
    exact houtside
  · split <;> exact ⟨rfl, rfl, rfl, rfl, rfl, rfl, rfl⟩

/-- The events and the refresh write of an edge leave the serializer's account alone, a reset too (R103). -/
theorem edgeResult_serializer (s : State) (f : CycFields) :
    (edgeResult s f).loaded = s.loaded ∧ (edgeResult s f).owed = s.owed := by
  unfold edgeResult
  split
  · exact ⟨rfl, rfl⟩
  · obtain ⟨-, -, -, -, -, hloaded, howed⟩ := eventResult_sameOutside s f
    obtain ⟨-, -, -, -, -, -, -, -, hloaded', howed'⟩ := applyWr_fields (eventResult s f) (refreshOf f)
    exact ⟨hloaded'.trans hloaded, howed'.trans howed⟩

/-- A run counts the bytes it sends (R47; log 10). -/
theorem RunsOver.loaded_eq {s t : State} {es : List Edge} {sent : List Byte} (h : RunsOver s es sent t) :
    t.loaded = s.loaded + sent.length := by
  induction h with
  | nil => rfl
  | @cons s t u e es sent hin hstep _ ih =>
    have hloads : bitVal e.load = (edgeSends s e).length := by unfold edgeSends; cases e.load <;> rfl
    obtain ⟨-, rfl⟩ := accepts_and_eq_of_step hstep
    obtain ⟨hloaded, -⟩ := edgeResult_serializer s (fieldsIn s)
    rw [ih, advance_loaded, hloaded, edgeIn_of_inputs hin, hloads, List.length_append, Nat.add_assoc]

/-- Edges without a byte event leave the machine where it stands in the stream. -/
theorem sameStream_eventResult_of_not_rxValid {s : State} {f : CycFields} (h : f.rxValid = false) :
    SameStream s (eventResult s f) := by
  obtain ⟨hcursor, htx⟩ := eventResult_registers_of_not_rxValid h
  exact ⟨eventResult_cfg s f, hcursor, htx, fun i _ => readSlot_eventResult s f i⟩

/-- A calm edge is refused for no reason (R70). -/
theorem accepts_of_calm {s : State} {e : Edge} (hc : s.cfg.wf = true) (h : Calm s.cfg e) :
    Accepts s (refreshOf (unpack s.cfg e.cyc)) := by
  obtain ⟨-, -, -, hwrite⟩ := h
  refine ⟨hc, ?_⟩
  cases hwe : (unpack s.cfg e.cyc).bufWe with
  | false => simp [refreshOf_of_not_bufWe hwe]
  | true =>
    obtain ⟨hport, -, haddr⟩ := hwrite hwe
    simpa [refreshOf_of_bufWe hwe] using ⟨hport, haddr⟩

/-- A calm edge's refresh write reaches no live slot (R25). -/
theorem sameStream_edgeResult_of_calm {s : State} {e : Edge} (h : Calm s.cfg e) :
    SameStream (eventResult s (unpack s.cfg e.cyc)) (edgeResult s (unpack s.cfg e.cyc)) := by
  obtain ⟨-, hrst, -, hwrite⟩ := h
  refine ⟨by simp, ?_, ?_, fun i hi => ?_⟩
  · rw [edgeResult_of_not_rst hrst, applyWr_cursor]
  · rw [edgeResult_of_not_rst hrst, applyWr_txReg]
  · rw [readSlot_edgeResult_of_not_rst hrst, readSlot_eventResult, if_neg]
    rintro ⟨hwe, rfl⟩
    obtain ⟨-, hunused, -⟩ := hwrite hwe
    rw [eventResult_cfg] at hi
    exact Nat.not_le.2 hi hunused

/-- A calm edge whose load is in time runs, and takes the machine as far in the stream as its byte event does. -/
theorem exists_runsOver_calm {c : Config} {s : State} {e : Edge} {rest : List Edge} (hs : s.cfg = c)
    (hc : c.wf = true) (hin : s.inputs = e :: rest) (hcalm : Calm c e) (hlate : e.load = false ∨ s.owed = false) :
    ∃ t, RunsOver s [e] (edgeSends s e) t ∧ SameStream (eventResult s (unpack c e.cyc)) t ∧
      t.rxFlag = (eventResult s (unpack c e.cyc)).rxFlag ∧ t.inputs = rest ∧
      t.owed = ((e.load || s.owed) && !ownEvent c e) := by
  subst hs
  have haccepts := accepts_of_calm hc hcalm
  have hsame := sameStream_edgeResult_of_calm hcalm
  have hedge := edgeIn_of_inputs hin
  obtain ⟨hw, hrst, hdropped, -⟩ := hcalm
  have hintime : late s (edgeIn s) = false := by
    rw [hedge, late]
    rcases hlate with h | h <;> simp [h]
  have hstep := step_of_accepts (by rwa [hedge]) (by rwa [fieldsIn, hedge]) hintime
  rw [fieldsIn, hedge] at hstep
  have hinputs : (advance (edgeResult s (unpack s.cfg e.cyc)) e).inputs = rest := by
    rw [advance_inputs, edgeResult_inputs, hin, List.tail_cons]
  refine ⟨advance (edgeResult s (unpack s.cfg e.cyc)) e, ?_, ?_, ?_, hinputs, ?_⟩
  · rw [← List.append_nil (edgeSends s e)]
    exact .cons (by rw [hinputs, hin]) hstep (.nil _)
  · exact ⟨hsame.cfg, hsame.cursor, hsame.txReg, hsame.slots⟩
  · rw [advance_rxFlag, edgeResult_of_not_rst hrst, applyWr_rxFlag]
  · obtain ⟨-, howed⟩ := edgeResult_serializer s (unpack s.cfg e.cyc)
    rw [advance_owed, edgeResult_cfg, howed, hdropped, Bool.not_false, Bool.and_true]

/-- Quiet edges leave the machine where it stands in the stream, with the same event owed. -/
theorem exists_runsOver_quiet {c : Config} {es rest : List Edge} (hc : c.wf = true) (hquiet : ∀ e ∈ es, Quiet c e) :
    ∀ {s : State}, s.cfg = c → s.inputs = es ++ rest →
      ∃ t, RunsOver s es [] t ∧ SameStream s t ∧ t.inputs = rest ∧ t.owed = s.owed := by
  induction es with
  | nil => intro s _ hin; exact ⟨s, .nil s, .refl s, hin, rfl⟩
  | cons e es ih =>
    intro s hs hin
    obtain ⟨hcalm, hrx, hload⟩ := hquiet e List.mem_cons_self
    obtain ⟨t, hrun, hevent, -, hin', howed⟩ := exists_runsOver_calm hs hc hin hcalm (.inl hload)
    have hsame := (sameStream_eventResult_of_not_rxValid hrx).trans hevent
    obtain ⟨u, hrun', hsame', hinu, howed'⟩ :=
      ih (fun x hx => hquiet x (List.mem_cons_of_mem _ hx)) (hsame.cfg.trans hs) hin'
    have hsent : edgeSends s e = [] := by simp [edgeSends, hload]
    rw [hsent] at hrun
    refine ⟨u, hrun.append hrun', hsame.trans hsame', hinu, ?_⟩
    simp [howed', howed, hload, ownEvent, hrx]

/-- The load of an exchange, where it comes before the edge of the exchange's event, sends `tx_reg` and owes the event
(R47, R98). -/
theorem exists_runsOver_start {c : Config} {s : State} {start : Option Edge} {rest : List Edge} (hs : s.cfg = c)
    (hc : c.wf = true) (howes : s.owed = false) (hin : s.inputs = start.toList ++ rest)
    (hstart : ∀ e ∈ start, Calm c e ∧ (unpack c e.cyc).rxValid = false ∧ e.load = true) :
    ∃ t, RunsOver s start.toList (if start.isSome then [s.txReg] else []) t ∧ SameStream s t ∧ t.inputs = rest ∧
      t.owed = start.isSome := by
  cases start with
  | none => exact ⟨s, .nil s, .refl s, hin, howes⟩
  | some e =>
    obtain ⟨hcalm, hrx, hload⟩ := hstart e rfl
    obtain ⟨t, hrun, hevent, -, hin', howed⟩ := exists_runsOver_calm hs hc hin hcalm (.inr howes)
    have hsent : edgeSends s e = [s.txReg] := if_pos hload
    rw [hsent] at hrun
    refine ⟨t, hrun, (sameStream_eventResult_of_not_rxValid hrx).trans hevent, hin', ?_⟩
    simp [howed, hload, ownEvent, hrx]

/-- Edges that carry one exchange do what the exchange does in the transaction view, and owe nothing after it (R46,
R48). -/
theorem exists_runsOver_exchange {c : Config} {s : State} {rx : Byte} {x : ExchangeEdges} {rest : List Edge}
    (hs : s.cfg = c) (hc : c.wf = true) (howes : s.owed = false) (hx : Carries c rx x)
    (hin : s.inputs = x.edges ++ rest) :
    ∃ t, RunsOver s x.edges [s.txReg] t ∧ SameStream (TraceEvent.apply s (.exch rx)) t ∧ t.rxFlag = true ∧
      t.inputs = rest ∧ t.owed = false := by
  obtain ⟨hbefore, hstart, hduring, hcalm, hown, rfl, hload⟩ := hx
  simp only [ExchangeEdges.edges, List.append_assoc] at hin
  obtain ⟨s₁, hrun₁, hsame₁, hin₁, howed₁⟩ := exists_runsOver_quiet hc hbefore hs hin
  have hs₁ := hsame₁.cfg.trans hs
  obtain ⟨s₂, hrun₂, hsame₂, hin₂, howed₂⟩ := exists_runsOver_start hs₁ hc (howed₁.trans howes) hin₁ hstart
  have hs₂ := hsame₂.cfg.trans hs₁
  obtain ⟨s₃, hrun₃, hsame₃, hin₃, howed₃⟩ := exists_runsOver_quiet hc hduring hs₂ hin₂
  have hs₃ := hsame₃.cfg.trans hs₂
  have hsame := (hsame₁.trans hsame₂).trans hsame₃
  have hintime : x.valid.load = false ∨ s₃.owed = false := by
    rw [hload, howed₃, howed₂]
    cases x.start <;> simp
  obtain ⟨t, hrun, hevent, hflag, hint, howed⟩ := exists_runsOver_calm hs₃ hc hin₃ hcalm hintime
  obtain ⟨hrx, -⟩ := ownEvent_iff.1 hown
  rw [eventResult_of_rxValid hrx] at hevent hflag
  have hsent : [] ++ ((if x.start.isSome then [s₁.txReg] else []) ++ ([] ++ edgeSends s₃ x.valid)) = [s.txReg] := by
    rw [edgeSends, hload, hsame.txReg, hsame₁.txReg]
    cases x.start <;> rfl
  refine ⟨t, ?_, ?_, ?_, hint, by rw [howed, hown, Bool.not_true, Bool.and_false]⟩
  · rw [← hsent]
    exact hrun₁.append (hrun₂.append (hrun₃.append hrun))
  · refine .trans ?_ hevent
    rw [TraceEvent.apply, hs, hs₃]
    exact hsame.byteEvent _ _ _
  · rw [hflag, byteEvent_rxFlag]

/-- Edges that carry exchanges do what the exchanges do in the transaction view, by induction on the exchanges. -/
theorem exists_runsOver_exchanges {c : Config} {bytes : List Byte} {xs : List ExchangeEdges} {rest : List Edge}
    (hc : c.wf = true) (hxs : List.Forall₂ (Carries c) bytes xs) :
    ∀ {s : State}, s.cfg = c → s.owed = false → s.inputs = allEdges xs ++ rest →
      ∃ t, RunsOver s (allEdges xs) (misoOf s bytes) t ∧ SameStream (afterExchanges s bytes) t ∧
        (s.rxFlag = true ∨ bytes ≠ [] → t.rxFlag = true) ∧ t.inputs = rest ∧ t.owed = false := by
  induction hxs with
  | nil => intro s _ howes hin; exact ⟨s, .nil s, .refl s, by simp, hin, howes⟩
  | @cons rx x bytes xs hx _ ih =>
    intro s hs howes hin
    rw [allEdges, List.flatMap_cons, List.append_assoc] at hin
    obtain ⟨t, hrun, hsame, hflag, hint, howed⟩ := exists_runsOver_exchange hs hc howes hx hin
    obtain ⟨u, hrun', hsame', hflag', hinu, howed'⟩ := ih (hsame.cfg.trans ((byteEvent_cfg _ _ _).trans hs)) howed hint
    refine ⟨u, ?_, hsame.afterExchanges.trans hsame', fun _ => hflag' (.inl hflag), hinu, howed'⟩
    rw [hsame.misoOf_eq] at hrun'
    exact hrun.append hrun'

theorem length_misoOf (bytes : List Byte) : ∀ s : State, (misoOf s bytes).length = bytes.length := by
  induction bytes with
  | nil => intro s; rfl
  | cons rx rest ih => intro s; rw [misoOf, List.length_cons, List.length_cons, ih]

/-- Settles O40: the run over the edges is that of `exists_runsOver_exchanges`, and each exchange loads one byte. -/
theorem edgesRefineExchanges : Obligations.EdgesRefineExchanges := by
  intro s bytes xs rest hc howes hxs hin
  obtain ⟨t, hrun, hsame, hflag, hint, howed⟩ := exists_runsOver_exchanges hc hxs rfl howes hin
  obtain ⟨hstop, hsent⟩ := hrun.observe_eq
  have hloaded := hrun.loaded_eq
  rw [length_misoOf] at hloaded
  refine ⟨hstop, hsent, t, hrun.run_eq, hsame.cursor, hsame.txReg, fun h => hflag (.inr h), fun i hi => ?_, hint, howed,
    hloaded⟩
  rw [hsame.slots i (by rwa [afterExchanges_cfg]), readSlot_afterExchanges]

end Sys2Proof.Machine
end

section
/-! PROOFS. Trace lines (R49): the fields of a line, and that its edge does what the line's actions do (R48). -/

namespace Sys2Proof.Machine

theorem lineFields_rst_iff (evs : List TraceEvent) : (lineFields evs).rst = true ↔ .rst ∈ evs := by
  induction evs with
  | nil => simp [lineFields]
  | cons ev evs ih => cases ev <;> simp [lineFields, TraceEvent.join, ih]

theorem lineFields_rxValid (evs : List TraceEvent) : (lineFields evs).rxValid = evs.any TraceEvent.isExch := by
  induction evs with
  | nil => rfl
  | cons ev evs ih => cases ev <;> simp [lineFields, TraceEvent.join, TraceEvent.isExch, ih]

/-- The refresh write of a line is one that the line names (R49; log 20). -/
theorem mem_of_refreshOf_lineFields {evs : List TraceEvent} {r : Refresh} (h : refreshOf (lineFields evs) = some r) :
    .wr r.addr r.data ∈ evs := by
  induction evs with
  | nil => cases h
  | cons ev evs ih =>
    cases ev with
    | exch rx => exact List.mem_cons_of_mem _ (ih h)
    | clr => exact List.mem_cons_of_mem _ (ih h)
    | wr i v => cases h; exact List.mem_cons_self
    | rst => exact List.mem_cons_of_mem _ (ih h)

/-- The index of a line is 0, or one that the line names. -/
theorem lineFields_bufWaddr_lt {evs : List TraceEvent} {n : Nat} (hn : 0 < n) (h : ∀ i v, .wr i v ∈ evs → i < n) :
    (lineFields evs).bufWaddr < n := by
  induction evs with
  | nil => exact hn
  | cons ev evs ih =>
    have hrest := ih fun i v hmem => h i v (List.mem_cons_of_mem _ hmem)
    cases ev with
    | exch rx => exact hrest
    | clr => exact hrest
    | wr i v => exact h i v List.mem_cons_self
    | rst => exact hrest

/-- A slot's index fits `buf_waddr` (R4, R29). -/
theorem lt_two_pow_addrW {c : Config} {i : Nat} (h : i < c.bufCap) : i < 2 ^ c.addrW :=
  calc i < c.bufCap := h
    _ ≤ 2 ^ clog2 c.bufCap := le_two_pow_clog2 c.bufCap
    _ ≤ 2 ^ c.addrW := Nat.pow_le_pow_right (by decide) (le_max_right 1 (clog2 c.bufCap))

/-- The edge of a trace line ends where its actions do (R48). -/
theorem edgeResult_lineFields (s : State) (evs : List TraceEvent) :
    edgeResult s (lineFields evs) = runEvents s (lineActions evs) := by
  have hiff := lineFields_rst_iff evs
  rw [lineActions]
  cases hrst : (lineFields evs).rst with
  | true => rw [edgeResult_of_rst hrst, if_pos (hiff.1 hrst)]; rfl
  | false => rw [if_neg (by simp [← hiff, hrst]), runEvents_edgeActions hrst]

/-- An event alone on its line is its own action. -/
theorem runEvents_lineActions_singleton (s : State) (ev : TraceEvent) :
    runEvents s (lineActions [ev]) = ev.apply s := by
  cases ev with
  | exch rx => rfl
  | clr => rfl
  | wr i v => rfl
  | rst => rfl

/-- A line whose writes find the port and a slot is refused for no reason (R70). -/
theorem accepts_lineFields {s : State} {evs : List TraceEvent} (hc : s.cfg.wf = true)
    (hwr : ∀ i v, .wr i v ∈ evs → s.cfg.hasRefresh = true ∧ i < s.cfg.bufCap) :
    Accepts s (refreshOf (lineFields evs)) :=
  ⟨hc, fun r hr => hwr r.addr r.data (mem_of_refreshOf_lineFields hr)⟩

/-- The fields of a line whose indices are slots fit their ports, so the line's word has them. -/
theorem lineFields_fit {c : Config} {evs : List TraceEvent} (h : ∀ i v, .wr i v ∈ evs → i < c.bufCap) :
    (lineFields evs).bufWaddr < 2 ^ c.addrW :=
  lineFields_bufWaddr_lt (Nat.two_pow_pos _) fun i v hmem => lt_two_pow_addrW (h i v hmem)

/-- The load of a line's exchange and its own event fall on one edge (log 18), so nothing is owed after it. -/
theorem advance_lineEdge_owed {s : State} {evs : List TraceEvent} (howes : s.owed = false)
    (hfields : unpack s.cfg (lineEdge s.cfg evs).cyc = lineFields evs) :
    (advance s (lineEdge s.cfg evs)).owed = false := by
  have hown : ownEvent s.cfg (lineEdge s.cfg evs) = (lineEdge s.cfg evs).load := by
    rw [ownEvent, hfields, lineFields_rxValid]
    exact Bool.and_true _
  rw [advance_owed, howes, hown, Bool.false_and, Bool.or_false, Bool.and_not_self]

/-- Settles O54: the line's word unpacks to the line's fields, whose edge ends where the line's actions do. -/
theorem traceLineRunsItsActions : Obligations.TraceLineRunsItsActions := by
  refine ⟨fun s evs rest hc howes hwr hin => ?_, runEvents_lineActions_singleton⟩
  have hedge := edgeIn_of_inputs hin
  have hfit : (lineFields evs).bufWaddr < 2 ^ s.cfg.addrW := lineFields_fit fun i v hmem => (hwr i v hmem).2
  have hfields : unpack s.cfg (lineEdge s.cfg evs).cyc = lineFields evs := unpack_pack hc hfit
  have hfieldsIn : fieldsIn s = lineFields evs := by rw [fieldsIn, hedge, hfields]
  have hstep := step_of_accepts (by rw [hedge]; exact toNat_pack_lt hc hfit)
    (by rw [hfieldsIn]; exact accepts_lineFields hc hwr) (late_of_not_owed howes _)
  rw [hfieldsIn, hedge, edgeResult_lineFields] at hstep
  have hcfg : (runEvents s (lineActions evs)).cfg = s.cfg := by rw [← edgeResult_lineFields, edgeResult_cfg]
  have howes' : (runEvents s (lineActions evs)).owed = false := by
    obtain ⟨-, howed⟩ := edgeResult_serializer s (lineFields evs)
    rw [← edgeResult_lineFields, howed, howes]
  refine ⟨_, hstep, rfl, rfl, rfl, fun a => readSlot_advance _ _ a, hcfg, ?_, ?_, ?_⟩
  · rw [inputs_of_step hstep, hin, List.tail_cons]
  · rw [← hcfg] at hfields ⊢
    exact advance_lineEdge_owed howes' hfields
  · rw [observe_succ_of_next 0 hstep, hedge]
    exact List.append_nil _

end Sys2Proof.Machine
end

section
/-! PROOFS. The byte event (40_byte_event.md): what its three instructions do and leave unchanged, that an ADVANCE does not
depend on its byte, that the cursor fits its register, and the stream after a RESYNC. -/

namespace Sys2Proof.Machine

/-- Below `VAL_COUNT` a byte event emits the slot it works from and goes on to the next (R53, R55). -/
theorem byteEvent_registers_of_lt {s : State} {k : RxClass} (h : cursorFrom s k < s.cfg.valCount) (clr : Bool) :
    (byteEvent s k clr).txReg = readSlot s (cursorFrom s k) ∧ (byteEvent s k clr).cursor = cursorFrom s k + 1 := by
  obtain ⟨hcursor, htx, -⟩ := byteEvent_fields s k clr
  rw [hcursor, htx, if_pos h, if_pos h]
  exact ⟨rfl, rfl⟩

/-- From `VAL_COUNT` on a byte event emits `PAD` and stays where it works from (R53, R55). -/
theorem byteEvent_registers_of_ge {s : State} {k : RxClass} (h : s.cfg.valCount ≤ cursorFrom s k) (clr : Bool) :
    (byteEvent s k clr).txReg = s.cfg.pad ∧ (byteEvent s k clr).cursor = cursorFrom s k := by
  obtain ⟨hcursor, htx, -⟩ := byteEvent_fields s k clr
  rw [hcursor, htx, if_neg (Nat.not_lt.2 h), if_neg (Nat.not_lt.2 h)]
  exact ⟨rfl, rfl⟩

theorem sameOutside_applyWr {s t : State} (h : SameOutside s t) (wr : Option Refresh) :
    SameOutside s (applyWr t wr) := by
  cases wr <;> exact h

/-- Where the events of an edge changed no slot, only its refresh write does (R31). -/
theorem readSlot_applyWr_of_readSlot_eq {s t : State} (h : ∀ a, readSlot t a = readSlot s a) (wr : Option Refresh)
    (a : Nat) : readSlot (applyWr t wr) a = slotAfter s wr a := by
  simp only [readSlot_applyWr, slotAfter, h]

/-- What every byte event does besides the cursor and `tx_reg`, with the refresh write of its edge: the flag is set (R56),
and nothing changes but the slot written (R31). -/
theorem applyWr_byteEvent_frame (s : State) (k : RxClass) (clr : Bool) (wr : Option Refresh) :
    (applyWr (byteEvent s k clr) wr).rxFlag = true ∧ SameOutside s (applyWr (byteEvent s k clr) wr) ∧
      ∀ a, readSlot (applyWr (byteEvent s k clr) wr) a = slotAfter s wr a := by
  obtain ⟨-, -, hflag, -, houtside⟩ := byteEvent_fields s k clr
  exact ⟨(applyWr_rxFlag _ wr).trans hflag, sameOutside_applyWr houtside wr,
    readSlot_applyWr_of_readSlot_eq (readSlot_byteEvent s k clr) wr⟩

/-- Settles O15: a RESYNC works from cursor 0, which is below `VAL_COUNT` exactly where that is not 0. -/
theorem resyncResult : Obligations.ResyncResult := by
  refine ⟨fun c live f hrst hrx hmagic => classify_of_resync live hrst hrx (rxClass_eq_resync_iff.2 hmagic),
    fun s clr wr ha => ⟨_, exec_next_iff.2 ⟨ha, rfl⟩, fun hpos => ?_, fun hzero => ?_,
      applyWr_byteEvent_frame s .resync clr wr⟩⟩
  · obtain ⟨htx, hcursor⟩ := byteEvent_registers_of_lt (k := .resync) hpos clr
    exact ⟨(applyWr_txReg _ wr).trans htx, (applyWr_cursor _ wr).trans hcursor⟩
  · obtain ⟨htx, hcursor⟩ := byteEvent_registers_of_ge (k := .resync) hzero.le clr
    exact ⟨(applyWr_txReg _ wr).trans htx, (applyWr_cursor _ wr).trans hcursor⟩

/-- Settles O16: an ADVANCE works from the cursor, here at a live slot. -/
theorem advanceEmitResult : Obligations.AdvanceEmitResult := by
  refine ⟨fun s f hrst hrx hne hlive => ?_, fun s rx clr wr ha hlive => ⟨_, exec_next_iff.2 ⟨ha, rfl⟩, ?_⟩⟩
  · have hcase : live s = true := decide_eq_true hlive
    rw [classify_of_advance _ hrst hrx (rxClass_eq_advance_iff.2 hne), hcase, if_pos rfl]
  · obtain ⟨htx, hcursor⟩ := byteEvent_registers_of_lt (k := .advance) hlive clr
    exact ⟨(applyWr_txReg _ wr).trans htx, (applyWr_cursor _ wr).trans hcursor,
      applyWr_byteEvent_frame s .advance clr wr⟩

/-- Settles O17: an ADVANCE works from the cursor, here past the live slots. -/
theorem advancePadResult : Obligations.AdvancePadResult := by
  refine ⟨fun s f hrst hrx hne hpad => ?_, fun s rx clr wr ha hpad => ⟨_, exec_next_iff.2 ⟨ha, rfl⟩, ?_⟩⟩
  · have hcase : live s = false := decide_eq_false (Nat.not_lt.2 hpad)
    rw [classify_of_advance _ hrst hrx (rxClass_eq_advance_iff.2 hne), hcase, if_neg Bool.false_ne_true]
  · obtain ⟨htx, hcursor⟩ := byteEvent_registers_of_ge (k := .advance) hpad clr
    exact ⟨(applyWr_txReg _ wr).trans htx, (applyWr_cursor _ wr).trans hcursor,
      applyWr_byteEvent_frame s .advance clr wr⟩

/-- The cursor register numbers `BUF_CAP + 1` values, those of `0 .. BUF_CAP` (R4, D4). -/
theorem bufCap_lt_two_pow_curW (c : Config) : c.bufCap < 2 ^ c.curW := le_two_pow_clog2 (c.bufCap + 1)

/-- Settles O30: the invariant keeps the cursor within `VAL_COUNT`, which R5 keeps within `BUF_CAP`, which `CUR_W` bits
hold. -/
theorem cursorFitsItsRegister : Obligations.CursorFitsItsRegister := by
  refine ⟨fun s k hinv => ?_, by decide, by decide⟩
  obtain ⟨hwf, hcursor, -⟩ := hinv
  obtain ⟨-, hcount, -⟩ := conditions_of_wf hwf
  have hcap := bufCap_lt_two_pow_curW s.cfg
  exact ⟨(hcursor.trans hcount).trans_lt hcap, fun hlive => ⟨hlive, hcount, Nat.le_sub_one_of_lt hcap⟩⟩

/-- An edge with an ADVANCE ends the same whatever its byte, since the class is all that the block takes of it (R61). -/
theorem edgeResult_of_advance {s : State} {f : CycFields} (hrst : f.rst = false) (hrx : f.rxValid = true)
    (hne : f.rxByte ≠ s.cfg.magic) :
    edgeResult s f = applyWr (byteEvent s .advance f.flagClr) (refreshOf f) := by
  rw [edgeResult_of_not_rst hrst, eventResult_of_rxValid hrx, rxClass_eq_advance_iff.2 hne]

/-- Settles O34: the guard does not ask for the byte, and the edge's result takes only its class. -/
theorem advanceIgnoresItsByte : Obligations.AdvanceIgnoresItsByte := by
  intro s f b hrst hrx hne hb
  have hresult : edgeResult s { f with rxByte := b } = edgeResult s f := by
    rw [edgeResult_of_advance hrst hrx hne]
    exact edgeResult_of_advance hrst hrx hb
  rw [exec_classify, exec_classify, hresult]
  rfl

/-- A RESYNC is an ADVANCE from cursor 0 (R52). -/
theorem byteEvent_resync (s : State) (clr : Bool) :
    byteEvent s .resync clr = byteEvent { s with cursor := 0 } .advance clr := rfl

/-- A RESYNC fetches byte 0 of the stream from any state (R57, R65). -/
theorem atStreamByte_resync (s : State) (clr : Bool) : AtStreamByte (byteEvent s .resync clr) 0 := by
  rw [byteEvent_resync]
  exact atStreamByte_advance (Nat.zero_min _).symm clr

/-- Settles O35: each of the two fetches byte 0 of one and the same stream. -/
theorem resyncIsIdempotent : Obligations.ResyncIsIdempotent := by
  intro s clr clr' hc
  obtain ⟨htx, hcursor⟩ := atStreamByte_resync s clr
  obtain ⟨htx', hcursor'⟩ := atStreamByte_resync (byteEvent s .resync clr) clr'
  rw [streamByte_byteEvent] at htx'
  rw [byteEvent_cfg] at hcursor'
  refine ⟨byteEvent s .resync clr, byteEvent (byteEvent s .resync clr) .resync clr',
    exec_next_iff.2 ⟨⟨hc, nofun⟩, rfl⟩, exec_next_iff.2 ⟨⟨by rwa [byteEvent_cfg], nofun⟩, rfl⟩,
    hcursor'.trans hcursor.symm, htx'.trans htx.symm, byteEvent_rxFlag _ _ _, byteEvent_rxFlag _ _ _,
    fun hpos => ?_, fun hzero => ?_⟩
  · exact (byteEvent_registers_of_lt (k := .resync) hpos clr).symm
  · exact (byteEvent_registers_of_ge (k := .resync) hzero.le clr).symm

/-- Settles O36: from `cursor = VAL_COUNT` an ADVANCE emits `PAD` and leaves the cursor there, so the next one starts
there too. -/
theorem exhaustionAbsorbsAdvances : Obligations.ExhaustionAbsorbsAdvances := by
  intro s b bs
  induction bs generalizing s b with
  | nil =>
    intro hcursor hne
    obtain ⟨htx, hcursor'⟩ := byteEvent_registers_of_ge (k := .advance) hcursor.ge false
    rw [afterExchanges, apply_exch_of_ne_magic (hne b List.mem_cons_self)]
    exact ⟨hcursor'.trans hcursor, htx⟩
  | cons b' rest ih =>
    intro hcursor hne
    obtain ⟨-, hcursor'⟩ := byteEvent_registers_of_ge (k := .advance) hcursor.ge false
    have hrest := ih (byteEvent s .advance false) b'
    rw [byteEvent_cfg] at hrest
    rw [afterExchanges, apply_exch_of_ne_magic (hne b List.mem_cons_self)]
    exact hrest (hcursor'.trans hcursor) fun x hx => hne x (List.mem_cons_of_mem _ hx)

/-- Clears and ADVANCEs take a machine on in the stream by one byte for each ADVANCE (R65). -/
theorem runEvents_registers_of_atStreamByte {evs : List TraceEvent} :
    ∀ {s : State} {j : Nat}, AtStreamByte s j →
      (∀ ev ∈ evs, ev = .clr ∨ ∃ rx, rx ≠ s.cfg.magic ∧ ev = .exch rx) →
      (runEvents s evs).txReg = streamByte s (j + evs.countP TraceEvent.isExch) ∧
        (runEvents s evs).cursor = min (j + evs.countP TraceEvent.isExch + 1) s.cfg.valCount := by
  induction evs with
  | nil => intro s j hat _; exact hat
  | cons ev evs ih =>
    intro s j hat hevs
    obtain ⟨hev, hrest⟩ := List.forall_mem_cons.1 hevs
    obtain rfl | ⟨rx, hne, rfl⟩ := hev
    · rw [List.countP_cons_of_neg Bool.false_ne_true]
      exact ih (s := setFlag s false) hat hrest
    · obtain ⟨-, hcursor⟩ := hat
      have hnext := ih (atStreamByte_advance hcursor false) (by rwa [byteEvent_cfg])
      rw [streamByte_byteEvent, byteEvent_cfg, Nat.succ_add_eq_add_succ] at hnext
      rw [List.countP_cons_of_pos rfl, runEvents, apply_exch_of_ne_magic hne]
      exact hnext

/-- Settles O37: the RESYNC fetches byte 0 of the stream, and the events after it go on from there. -/
theorem streamLaw : Obligations.StreamLaw := by
  intro s evs hevs
  have hresync : TraceEvent.apply s (.exch s.cfg.magic) = byteEvent s .resync false := by
    rw [TraceEvent.apply, rxClass_eq_resync_iff.2 rfl]
  have hrun := runEvents_registers_of_atStreamByte (atStreamByte_resync s false) (evs := evs) (by rwa [byteEvent_cfg])
  rw [streamByte_byteEvent, byteEvent_cfg, Nat.zero_add] at hrun
  rwa [runEvents, hresync]

end Sys2Proof.Machine
end

section
/-! PROOFS. The host's operations (41_host_ops.md): the refusals of a refresh write, and what FLAG_CLR, BUF_WR and IDLE do
and leave unchanged. -/

namespace Sys2Proof.Machine

/-- The guard asks for the port before it looks at the index (R43, R70). -/
theorem guardEdge_of_portAbsent {s : State} (hc : s.cfg.wf = true) (hport : s.cfg.hasRefresh = false) (r : Refresh)
    (t : State) : guardEdge s (some r) t = .refused (.portAbsent s.edges) := by
  simp [guardEdge, failed_of_wf hc, hport]

theorem guardEdge_of_addrOutOfRange {s : State} {r : Refresh} (hc : s.cfg.wf = true) (hport : s.cfg.hasRefresh = true)
    (haddr : s.cfg.bufCap ≤ r.addr) (t : State) :
    guardEdge s (some r) t = .refused (.addrOutOfRange s.edges r.addr) := by
  simp [guardEdge, failed_of_wf hc, hport, haddr]

/-- Settles O12: whatever the fields decode to, the guard of their refresh write comes before the edge's result. -/
theorem refreshWriteRefusals : Obligations.RefreshWriteRefusals := by
  intro s f hc hwe
  rw [exec_classify, refreshOf_of_bufWe hwe]
  exact ⟨fun hport => guardEdge_of_portAbsent hc hport _ _,
    fun hport haddr => guardEdge_of_addrOutOfRange hc hport haddr _⟩

/-- An edge with a byte event and no reset ends with the flag set, whether or not it carries a clear (R56, R86). -/
theorem edgeResult_rxFlag_of_rxValid {s : State} {f : CycFields} (hrst : f.rst = false) (hrx : f.rxValid = true) :
    (edgeResult s f).rxFlag = true := by
  rw [edgeResult_of_not_rst hrst, applyWr_rxFlag, eventResult_rxFlag, if_pos hrx]

/-- Settles O18: FLAG_CLR is the update of the one register and then the edge's refresh write, and at the edge of a byte
event the set wins. -/
theorem flagClearResult : Obligations.FlagClearResult := by
  refine ⟨fun c b f hrst hrx hclr => classify_of_flagClr b hrst hrx hclr,
    fun s wr ha => ⟨_, exec_next_iff.2 ⟨ha, rfl⟩, ?_⟩,
    fun s f ha hrst hrx _ => ⟨_, exec_classify_of_accepts ha _, edgeResult_rxFlag_of_rxValid hrst hrx⟩⟩
  have houtside : SameOutside s (setFlag s false) := ⟨rfl, rfl, rfl, rfl, rfl, rfl, rfl⟩
  exact ⟨applyWr_rxFlag _ wr, applyWr_cursor _ wr, applyWr_txReg _ wr, sameOutside_applyWr houtside wr,
    readSlot_applyWr_of_readSlot_eq (readSlot_setFlag s false) wr⟩

/-- Settles O19: BUF_WR is the edge's refresh write alone. -/
theorem bufWriteResult : Obligations.BufWriteResult := by
  refine ⟨fun c b f hrst hrx hclr hwe => ?_, fun s r ha => ⟨_, exec_next_iff.2 ⟨ha, rfl⟩,
    readSlot_writeSlot_same s r.addr r.data, fun a hne => readSlot_writeSlot_other s r.data hne,
    applyWr_fields s (some r)⟩⟩
  rw [classify_of_refresh b hrst hrx hclr, refreshOf_of_bufWe hwe]
  rfl

/-- Settles O20: without an event nothing is left of the fields, and IDLE carries no refresh write to refuse. -/
theorem idleResult : Obligations.IdleResult := by
  refine ⟨fun c b f hrst hrx hclr hwe => ?_, fun s hc => exec_next_iff.2 ⟨⟨hc, nofun⟩, rfl⟩⟩
  rw [classify_of_refresh b hrst hrx hclr, refreshOf_of_not_bufWe hwe]
  rfl

end Sys2Proof.Machine
end

section
/-! PROOFS. The initiator's frame (42_frame.md): what exchanges receive after a MAGIC, what a frame captures from any
state, over any edges that carry it, after a frame that was cut, and where a byte event is missed. -/

namespace Sys2Proof.Machine

theorem apply_exch_magic (s : State) : TraceEvent.apply s (.exch s.cfg.magic) = byteEvent s .resync false := by
  rw [TraceEvent.apply, rxClass_eq_resync_iff.2 rfl]

theorem misoOf_append (xs ys : List Byte) :
    ∀ s : State, misoOf s (xs ++ ys) = misoOf s xs ++ misoOf (afterExchanges s xs) ys := by
  induction xs with
  | nil => intro s; rfl
  | cons rx rest ih => intro s; exact congrArg (txByte s :: ·) (ih _)

theorem afterExchanges_eq_runEvents (bs : List Byte) :
    ∀ s : State, afterExchanges s bs = runEvents s (bs.map .exch) := by
  induction bs with
  | nil => intro s; rfl
  | cons rx rest ih => intro s; exact ih _

/-- Exchanges change neither the buffer nor the configuration, so they do not change the stream (R6, R30). -/
theorem streamByte_afterExchanges (s : State) (bs : List Byte) :
    streamByte (afterExchanges s bs) = streamByte s := by
  funext j
  rw [streamByte, streamByte, afterExchanges_cfg, readSlot_afterExchanges]

theorem countP_isExch_map_exch (bs : List Byte) : (bs.map TraceEvent.exch).countP TraceEvent.isExch = bs.length :=
  List.countP_map.trans (List.countP_eq_length.2 fun _ _ => rfl)

/-- A MAGIC receives the `tx_reg` from before it, and the exchanges after it the stream from byte 0 on (R65, R78). -/
theorem misoOf_magic_cons {s : State} {ys : List Byte} (hys : ∀ y ∈ ys, y ≠ s.cfg.magic) :
    misoOf s (s.cfg.magic :: ys) = s.txReg :: (List.range ys.length).map (streamByte s) := by
  have hrest := misoOf_of_atStreamByte (atStreamByte_resync s false) (bs := ys) (by rwa [byteEvent_cfg])
  rw [streamByte_byteEvent] at hrest
  rw [misoOf, apply_exch_magic, hrest, txByte, List.range_eq_range']

/-- Where a MAGIC and the exchanges after it leave the machine in the stream (R65). -/
theorem afterExchanges_magic_cons {s : State} {ys : List Byte} (hys : ∀ y ∈ ys, y ≠ s.cfg.magic) :
    (afterExchanges s (s.cfg.magic :: ys)).txReg = streamByte s ys.length ∧
      (afterExchanges s (s.cfg.magic :: ys)).cursor = min (ys.length + 1) s.cfg.valCount := by
  have hlaw := streamLaw s (ys.map .exch) fun ev hev => by
    obtain ⟨y, hy, rfl⟩ := List.mem_map.1 hev
    exact .inr ⟨y, hys y hy, rfl⟩
  rwa [countP_isExch_map_exch, ← List.map_cons, ← afterExchanges_eq_runEvents] at hlaw

/-- Settles O45: the bytes before and with the MAGIC are dropped, and after it the stream starts anew. -/
theorem magicRestartsTheStream : Obligations.MagicRestartsTheStream := by
  intro s xs ys hys
  have hmiso := misoOf_magic_cons (s := afterExchanges s xs) (ys := ys) (by rwa [afterExchanges_cfg])
  rw [afterExchanges_cfg, streamByte_afterExchanges] at hmiso
  rw [misoOf_append, hmiso, ← length_misoOf xs s, List.drop_length_add_append, List.drop_one, List.tail_cons]

theorem length_initiatorSends (c : Config) : (initiatorSends c).length = c.frameBody + 1 := by
  rw [initiatorSends, frameOf, List.length_cons, List.length_replicate]

/-- The zeros of a frame's body are no MAGIC unless that is 0. -/
theorem ne_magic_of_mem_replicate_zero {c : Config} (hmagic : c.magic ≠ 0) (n : Nat) :
    ∀ y ∈ List.replicate n (0 : Byte), y ≠ c.magic :=
  fun _ hy => List.eq_of_mem_replicate hy ▸ hmagic.symm

/-- A frame receives the `tx_reg` from before it, and then the stream from byte 0 on (R77, R78). -/
theorem misoOf_initiatorSends {s : State} (hmagic : s.cfg.magic ≠ 0) :
    misoOf s (initiatorSends s.cfg) = s.txReg :: (List.range s.cfg.frameBody).map (streamByte s) := by
  rw [initiatorSends, frameOf, misoOf_magic_cons (ne_magic_of_mem_replicate_zero hmagic _), List.length_replicate]

/-- What a frame captures, from any state (R77). -/
theorem captured_misoOf_initiatorSends {s : State} (hmagic : s.cfg.magic ≠ 0) :
    captured (misoOf s (initiatorSends s.cfg)) = (List.range s.cfg.frameBody).map (streamByte s) := by
  rw [misoOf_initiatorSends hmagic, captured, List.drop_one, List.tail_cons]

/-- What a frame captures after any exchanges, a frame cut short or a whole one among them, is what it captures without
them (R79, R80). -/
theorem captured_misoOf_initiatorSends_afterExchanges {s : State} (hmagic : s.cfg.magic ≠ 0) (bs : List Byte) :
    captured (misoOf (afterExchanges s bs) (initiatorSends s.cfg)) =
      (List.range s.cfg.frameBody).map (streamByte s) := by
  have hframe := captured_misoOf_initiatorSends (s := afterExchanges s bs) (by rwa [afterExchanges_cfg])
  rwa [afterExchanges_cfg, streamByte_afterExchanges] at hframe

/-- The first exchanges of a frame are its MAGIC and some of its zeros (R74). -/
theorem take_succ_initiatorSends (c : Config) (n : Nat) :
    (initiatorSends c).take (n + 1) = c.magic :: List.replicate (min n c.frameBody) 0 := by
  rw [initiatorSends, frameOf, List.take_succ_cons, List.take_replicate]

/-- Settles O43: the exchanges of the cut frame are a MAGIC and zeros, and the next frame does not depend on them. -/
theorem truncatedFrameHeals : Obligations.TruncatedFrameHeals := by
  intro s m hm hmagic
  refine ⟨?_, captured_misoOf_initiatorSends_afterExchanges hmagic _⟩
  obtain ⟨n, rfl⟩ := Nat.exists_eq_add_of_le' hm
  obtain ⟨-, hcursor⟩ := afterExchanges_magic_cons (ne_magic_of_mem_replicate_zero hmagic (min n s.cfg.frameBody))
  rw [take_succ_initiatorSends, hcursor, List.length_replicate, Nat.add_min_add_right]

/-- The stream of the reference configuration, where the live slots hold their payload of `INIT_BUF` (R4, R77). -/
theorem streamByte_reference {s : State} (hc : s.cfg = Config.reference)
    (hslots : ∀ i < 5, some (readSlot s i) = Config.reference.initSlot i) :
    (List.range 5).map (streamByte s) = [0x59, 0x43, 0x16, 0x15, 0x14] := by
  have hstream : ∀ i ∈ List.range 5, some (streamByte s i) = Config.reference.initSlot i := fun i hi => by
    have hlive : i < 5 := List.mem_range.1 hi
    rw [streamByte, hc, if_pos (by exact hlive), hslots i hlive]
  apply List.map_injective_iff.2 (Option.some_injective Byte)
  rw [List.map_map]
  exact List.map_congr_left hstream

/-- Settles O41: the edges do what the frame does in the transaction view, where its bytes and its end are those of a
MAGIC and of exchanges after it. -/
theorem frameLaw : Obligations.FrameLaw := by
  intro s xs rest hc hmagic howes hxs hin
  obtain ⟨hstop, hsent, t, hrun, hcursor, htx, hflag, -⟩ := edgesRefineExchanges s _ xs rest hc howes hxs hin
  have hcaptured := captured_misoOf_initiatorSends hmagic
  obtain ⟨htx', hcursor'⟩ := afterExchanges_magic_cons (ne_magic_of_mem_replicate_zero hmagic s.cfg.frameBody)
  rw [List.length_replicate] at htx' hcursor'
  rw [hsent]
  refine ⟨hstop, congrArg List.head? (misoOf_initiatorSends hmagic), hcaptured, fun href hslots => ?_, t, hrun,
    hcursor.trans hcursor', htx.trans htx', hflag (List.cons_ne_nil _ _)⟩
  rw [hcaptured, href]
  exact streamByte_reference href hslots

/-- Settles O42: the edges carry the exchanges of both frames, and the second one captures what it would without the
first. -/
theorem twoFramesCaptureTheSame : Obligations.TwoFramesCaptureTheSame := by
  intro s xs ys rest hc hmagic howes hxs hys hin
  obtain ⟨hstop, hsent, -⟩ := edgesRefineExchanges s _ (xs ++ ys) rest hc howes (List.rel_append hxs hys) hin
  have hfirst := captured_misoOf_initiatorSends hmagic
  have hsecond := captured_misoOf_initiatorSends_afterExchanges hmagic (initiatorSends s.cfg)
  exact ⟨misoOf s (initiatorSends s.cfg), misoOf (afterExchanges s (initiatorSends s.cfg)) (initiatorSends s.cfg),
    hsent.trans (misoOf_append _ _ s), hstop, (length_misoOf _ s).trans (length_initiatorSends s.cfg),
    hfirst.trans hsecond.symm, hfirst⟩

/-- A MAGIC at every exchange sends byte 0 of the stream again and again (R62, R81). -/
theorem misoOf_replicate_magic (n : Nat) :
    ∀ {s : State}, s.txReg = streamByte s 0 →
      misoOf s (List.replicate n s.cfg.magic) = List.replicate n (streamByte s 0) := by
  induction n with
  | zero => intros; rfl
  | succ n ih =>
    intro s htx
    obtain ⟨htx', -⟩ := atStreamByte_resync s false
    have hrest := ih htx'
    rw [byteEvent_cfg, streamByte_byteEvent] at hrest
    rw [List.replicate_succ, misoOf, apply_exch_magic, hrest, txByte, htx, List.replicate_succ]

/-- Settles O46: where MAGIC is 0, every byte of the frame is a MAGIC, and byte 0 of the stream is slot 0. -/
theorem zeroMagicFrameRepeatsSlotZero : Obligations.ZeroMagicFrameRepeatsSlotZero := by
  intro s hmagic hpos
  obtain ⟨htx, -⟩ := atStreamByte_resync s false
  have hbody := misoOf_replicate_magic s.cfg.frameBody htx
  have hslot : streamByte s 0 = readSlot s 0 := if_pos hpos
  rw [byteEvent_cfg, streamByte_byteEvent, hmagic, hslot] at hbody
  rw [initiatorSends, frameOf, misoOf, apply_exch_magic, hbody, captured, List.drop_one, List.tail_cons]

/-- A machine that stops at its next edge sends nothing (R99). -/
theorem observe_succ_sent_of_stop {s : State} (n : Nat) (hstop : ∀ t, step s ≠ .next t) :
    (observe (n + 1) s).sent = [] := by
  cases h : step s with
  | next t => exact absurd h (hstop t)
  | fault r => simp [observe, h]
  | refused r => simp [observe, h]

/-- Settles O44, by induction on the edges: an edge with neither a reset nor a byte event keeps `tx_reg`, which is all
that a load sends. -/
theorem byteRepeatsWithoutAnEvent : Obligations.ByteRepeatsWithoutAnEvent := by
  intro s es rest
  induction es generalizing s with
  | nil => intro _ _ b hb; cases hb
  | cons e es ih =>
    intro hin hes b hb
    obtain ⟨⟨hrst, hrx⟩, hrest⟩ := List.forall_mem_cons.1 hes
    have hedge := edgeIn_of_inputs hin
    rw [List.length_cons] at hb
    by_cases hnext : ∃ t, step s = .next t
    · obtain ⟨t, hstep⟩ := hnext
      obtain ⟨-, htx⟩ := cursorWrittenOnlyByEventsAndReset s t hstep (by rwa [fieldsIn, hedge])
        (by rwa [fieldsIn, hedge])
      have hin' : t.inputs = es ++ rest := by rw [inputs_of_step hstep, hin, List.cons_append, List.tail_cons]
      rw [observe_succ_of_next _ hstep] at hb
      rcases List.mem_append.1 hb with hload | hlater
      · split at hload
        · exact List.mem_singleton.1 hload
        · cases hload
      · rw [← htx]
        exact ih t hin' (by rwa [configurationNeverChanges s t hstep]) b hlater
    · rw [observe_succ_sent_of_stop _ (not_exists.1 hnext)] at hb
      cases hb

end Sys2Proof.Machine
end

section
/-! PROOFS. Exceptions (60_exceptions.md): the stated reasons of a refusal, the priority among the events of an edge (R86),
the one fault, and who drives the sampled inputs (R90). -/

namespace Sys2Proof.Machine

/-- Everything the guard of an edge refuses: an ill-formed configuration, then a refresh write without its port, then
one beyond the buffer (R5, R70). -/
theorem guardEdge_refused_iff {s t : State} {wr : Option Refresh} {r : Refusal} :
    guardEdge s wr t = .refused r ↔
      (∃ cond, s.cfg.failed = some cond ∧ r = .configRefused cond) ∨
      (s.cfg.wf = true ∧ ∃ w ∈ wr,
        (s.cfg.hasRefresh = false ∧ r = .portAbsent s.edges) ∨
        (s.cfg.hasRefresh = true ∧ s.cfg.bufCap ≤ w.addr ∧ r = .addrOutOfRange s.edges w.addr)) := by
  unfold guardEdge Config.wf
  cases hc : s.cfg.failed with
  | some cond => simp [eq_comm (b := r)]
  | none =>
    cases wr with
    | none => simp
    | some w =>
      cases hport : s.cfg.hasRefresh with
      | false => simp [eq_comm (b := r)]
      | true => by_cases haddr : s.cfg.bufCap ≤ w.addr <;> simp [haddr, eq_comm (b := r)]

/-- A write strobe and its operands are the refresh write of an edge (R44). -/
theorem mem_refreshOf_iff {f : CycFields} {w : Refresh} :
    w ∈ refreshOf f ↔ f.bufWe = true ∧ w = ⟨f.bufWaddr, f.bufWdata⟩ := by
  cases hwe : f.bufWe with
  | true => simp [refreshOf_of_bufWe hwe, eq_comm (a := w)]
  | false => simp [refreshOf_of_not_bufWe hwe]

/-- The end of an edge refuses nothing of its own (R86 item 1). -/
theorem finishEdge_refused_iff {s : State} {o : Host.Outcome State Fault Refusal} {r : Refusal} :
    finishEdge s o = .refused r ↔ o = .refused r := by
  cases o with
  | next t => cases hlate : late s (edgeIn s) <;> simp [finishEdge, hlate]
  | fault r' => simp [finishEdge]
  | refused r' => simp [finishEdge]

/-- Settles O14: a refused step either failed at its fetch, or the guard of its edge's refresh write refused it. -/
theorem refusalsHaveTheirReasons : Obligations.RefusalsHaveTheirReasons := by
  intro s r hstep
  cases hc : s.cfg.failed with
  | some cond =>
    rw [step_of_failed hc] at hstep
    cases hstep
    exact .inl ⟨cond, rfl, rfl⟩
  | none =>
    by_cases hw : (edgeIn s).cyc.toNat < 2 ^ cycWidth s.cfg
    · rw [step_of_cycWord hc hw, finishEdge_refused_iff, guardEdge_refused_iff] at hstep
      obtain ⟨cond, hcond, -⟩ | ⟨-, w, hmem, hreason⟩ := hstep
      · rw [hc] at hcond
        cases hcond
      · obtain ⟨hwe, rfl⟩ := mem_refreshOf_iff.1 hmem
        obtain ⟨hport, hr⟩ | ⟨hport, haddr, hr⟩ := hreason
        · exact .inr (.inl ⟨hwe, hport, hr⟩)
        · exact .inr (.inr (.inl ⟨hwe, hport, haddr, hr⟩))
    · rw [step_of_beyondWidth hc hw] at hstep
      cases hstep
      exact .inr (.inr (.inr ⟨Nat.not_lt.1 hw, rfl⟩))

/-- A byte event emits the stream's byte at the cursor it works from, and moves that cursor on within the live slots
(R53, R55). -/
theorem edgeResult_registers_of_rxValid {s : State} {f : CycFields} {c0 : Nat} (hrst : f.rst = false)
    (hrx : f.rxValid = true) (hfrom : cursorFrom s (rxClass s.cfg f.rxByte) = c0) :
    (edgeResult s f).cursor = (if c0 < s.cfg.valCount then c0 + 1 else c0) ∧
      (edgeResult s f).txReg = streamByte s c0 := by
  obtain ⟨hcursor, htx, -⟩ := byteEvent_fields s (rxClass s.cfg f.rxByte) f.flagClr
  rw [edgeResult_of_not_rst hrst, applyWr_cursor, applyWr_txReg, eventResult_of_rxValid hrx, hcursor, htx, hfrom]
  exact ⟨rfl, rfl⟩

/-- Without a byte event the cursor and `tx_reg` stay, and a clear takes effect (R13, R15, R67). -/
theorem edgeResult_registers_of_not_rxValid {s : State} {f : CycFields} (hrst : f.rst = false)
    (hrx : f.rxValid = false) :
    (edgeResult s f).cursor = s.cursor ∧ (edgeResult s f).txReg = s.txReg ∧
      (edgeResult s f).rxFlag = if f.flagClr = true then false else s.rxFlag := by
  obtain ⟨hcursor, htx⟩ := eventResult_registers_of_not_rxValid (s := s) hrx
  rw [edgeResult_of_not_rst hrst, applyWr_cursor, applyWr_txReg, applyWr_rxFlag, eventResult_rxFlag, hrx,
    if_neg Bool.false_ne_true]
  exact ⟨hcursor, htx, rfl⟩

/-- Settles O23: the guard comes before the edge's result, and that is the reset, or else the byte event or the clear,
with the refresh write after it. -/
theorem eventPriority : Obligations.EventPriority := by
  intro s f hc
  refine ⟨fun hwe hbad => ?_, fun ha => ⟨fun hrst => ?_, fun hrst =>
    ⟨edgeResult s f, exec_classify_of_accepts ha _, fun hrx => ⟨edgeResult_rxFlag_of_rxValid hrst hrx,
      fun hmagic => ?_, fun hne => ?_⟩, edgeResult_registers_of_not_rxValid hrst,
      readSlot_edgeResult_of_not_rst hrst⟩⟩⟩
  · obtain ⟨habsent, hrange⟩ := refreshWriteRefusals s f hc hwe
    cases hport : s.cfg.hasRefresh with
    | false => exact ⟨_, habsent hport⟩
    | true =>
      have haddr := hbad.resolve_left (ne_false_of_eq_true hport)
      exact ⟨_, hrange hport haddr⟩
  · rw [exec_classify_of_accepts ha, edgeResult_of_rst hrst]
  · exact edgeResult_registers_of_rxValid hrst hrx (by rw [rxClass_eq_resync_iff.2 hmagic]; rfl)
  · exact edgeResult_registers_of_rxValid hrst hrx (by rw [rxClass_eq_advance_iff.2 hne]; rfl)

theorem exec_not_fault (i : Instr) (s : State) (r : Fault) : exec i s ≠ .fault r := by
  rw [exec_eq_guardEdge]
  exact guardEdge_not_fault

/-- The end of an edge adds one fault of its own: a next state's late load (R99). -/
theorem finishEdge_fault_iff {s : State} {o : Host.Outcome State Fault Refusal} {r : Fault} :
    finishEdge s o = .fault r ↔
      o = .fault r ∨ (∃ t, o = .next t) ∧ late s (edgeIn s) = true ∧ r = .deadlineMissed (s.loaded + 1) := by
  cases o with
  | next t => cases hlate : late s (edgeIn s) <;> simp [finishEdge, hlate, eq_comm (b := r)]
  | fault r' => simp [finishEdge]
  | refused r' => simp [finishEdge]

/-- Everything a step that faults can do: it fetched an instruction that answered, at an edge whose load is late. -/
theorem step_fault_iff {s : State} {r : Fault} :
    step s = .fault r ↔
      (∃ i t, fetch s = .ok i ∧ exec i s = .next t) ∧ late s (edgeIn s) = true ∧
        r = .deadlineMissed (s.loaded + 1) := by
  cases hfetch : fetch s with
  | error r' => simp [step, hfetch]
  | ok i => simp [step_of_fetch_ok hfetch, finishEdge_fault_iff, exec_not_fault]

/-- Settles O49: the guard never faults, so the fault of a step is that of the edge's end. -/
theorem onlyLateLoadsFault : Obligations.OnlyLateLoadsFault := by
  refine ⟨exec_not_fault, fun s r hstep => ?_⟩
  obtain ⟨-, hlate, hr⟩ := step_fault_iff.1 hstep
  exact ⟨hr, late_iff.1 hlate⟩

theorem mem_cycPorts_iff (p : Port) : p ∈ cycPorts ↔ p.dir = .input ∧ p ≠ .clk := by
  cases p <;> decide

/-- The sampled inputs are shared out between the serializer and the host (R90). -/
theorem mem_cycPorts_iff_one_driver (p : Port) :
    p ∈ cycPorts ↔
      (p ∈ Agent.serializer.drives ∧ p ∉ Agent.host.drives) ∨
        (p ∉ Agent.serializer.drives ∧ p ∈ Agent.host.drives) := by
  cases p <;> decide

/-- Only the write port can be absent (R38). -/
theorem present_eq_false_iff (c : Config) (p : Port) :
    Port.present c p = false ↔ c.hasRefresh = false ∧ (p = .bufWe ∨ p = .bufWaddr ∨ p = .bufWdata) := by
  cases p <;> simp [Port.present]

/-- Settles O9: the ports, the lists of drivers and the conditional ports are finite tables, read off port by port. -/
theorem eachInputPortHasOneDriver : Obligations.EachInputPortHasOneDriver :=
  ⟨mem_cycPorts_iff, mem_cycPorts_iff_one_driver, rfl, present_eq_false_iff⟩

end Sys2Proof.Machine
end

section
/-! PROOFS. Reset and the hazards (70_reset_and_hazards.md): what RESET does and where the stream goes on after it (R95,
R103), and the deadline of a load (R98, R99). -/

namespace Sys2Proof.Machine

/-- A reset gives a slot that `INIT_BUF` leaves unspecified the draw of its number (R23, R95). -/
theorem readSlot_resetState_of_unspecified {s : State} {i : Nat} (h : s.cfg.initSlot i = none) :
    readSlot (resetState s) i = Config.freeByte (s.draws + i) := by
  rw [readSlot_resetState, unlisted, h, Option.getD_none]

/-- Settles O21: RESET is the guard and then the reset state, whose draws are numbered from `draws` up: one for each slot
and one more for `tx_reg`. -/
theorem resetResult : Obligations.ResetResult := by
  refine ⟨fun c live f hrst => classify_of_rst live hrst, fun s wr ha => ⟨resetState s, exec_next_iff.2 ⟨ha, rfl⟩,
    fun i b _ hslot => readSlot_resetState_of_specified hslot, fun i hi hslot =>
      ⟨s.draws + i, Nat.le_add_right _ _, ?_, readSlot_resetState_of_unspecified hslot⟩,
    rfl, rfl, ⟨s.draws + s.cfg.bufCap, Nat.le_add_right _ _, Nat.lt_succ_self _, rfl⟩, rfl, rfl, rfl, rfl, rfl⟩⟩
  rw [resetState_draws]
  omega

/-- Settles O47: a reset draws `tx_reg` and leaves the cursor at 0, from where the stream is received in order. -/
theorem resetInAFrameRestartsAtSlotZero : Obligations.ResetInAFrameRestartsAtSlotZero := by
  intro s b bs hne
  refine ⟨⟨_, congrArg some (resetState_txReg s)⟩, streamOrderFromCursorZero (resetState s) (b :: bs) rfl hne,
    fun hpos => ?_⟩
  rw [apply_exch_of_ne_magic (s := resetState s) (hne b List.mem_cons_self)]
  exact (byteEvent_registers_of_lt (s := resetState s) (k := .advance) hpos false).symm

/-- A CYC word that nothing refuses and whose load is late is the missed deadline of the exchange begun (R99). -/
theorem step_of_accepts_of_late {s : State} (hw : (edgeIn s).cyc.toNat < 2 ^ cycWidth s.cfg)
    (ha : Accepts s (refreshOf (fieldsIn s))) (hlate : late s (edgeIn s) = true) :
    step s = .fault (.deadlineMissed (s.loaded + 1)) := by
  rw [step_of_cycWord (failed_of_wf ha.1) hw, guardEdge_next_iff.2 ⟨ha, rfl⟩, finishEdge_fault_iff]
  exact .inr ⟨⟨_, rfl⟩, hlate, rfl⟩

theorem ownEvent_eq_false_iff {c : Config} {e : Edge} :
    ownEvent c e = false ↔ ¬ ((unpack c e.cyc).rxValid = true ∧ e.extra = false) := by
  rw [← ownEvent_iff, Bool.not_eq_true]

/-- What a step does to the serializer's account: it counts a load, and an exchange is owed its event from its load until
its own event is sampled or given up (R98; log 10, 18, 19). -/
theorem serializer_of_step {s t : State} (h : step s = .next t) :
    t.loaded = s.loaded + bitVal (edgeIn s).load ∧
      (t.owed = true ↔ ((edgeIn s).load = true ∨ (s.owed = true ∧ (edgeIn s).dropped = false)) ∧
        ¬ ((fieldsIn s).rxValid = true ∧ (edgeIn s).extra = false)) := by
  obtain ⟨-, rfl⟩ := accepts_and_eq_of_step h
  obtain ⟨hloaded, howed⟩ := edgeResult_serializer s (fieldsIn s)
  rw [advance_loaded, advance_owed_iff, edgeResult_cfg, hloaded, howed, ownEvent_eq_false_iff]
  exact ⟨rfl, Iff.rfl⟩

/-- Settles O48: a late load faults at its edge, which sends nothing, and every other step keeps the serializer's
account. -/
theorem lateLoadFaults : Obligations.LateLoadFaults := by
  refine ⟨fun s n hw ha hload howed hdropped => ?_, fun s t hstep => serializer_of_step hstep⟩
  have hfault := step_of_accepts_of_late hw ha (late_iff.2 ⟨hload, howed, hdropped⟩)
  exact ⟨hfault, observe_succ_sent_of_stop n (by simp [hfault])⟩

/-- Settles O52: the own event leaves nothing owed, and only what is owed makes a load late. -/
theorem loadAfterTheEventIsInTime : Obligations.LoadAfterTheEventIsInTime := by
  intro s t hstep hrx hextra
  obtain ⟨-, howed⟩ := serializer_of_step hstep
  have hsettled : t.owed = false := Bool.eq_false_iff.2 fun h => (howed.1 h).2 ⟨hrx, hextra⟩
  exact ⟨late_of_not_owed hsettled, fun hw ha => everyLegalEdgeCompletes t hw ha (late_of_not_owed hsettled _)⟩

/-- An edge that neither begins an exchange nor settles one: no load, no event given up, and no byte event but an extra
one (R93; log 10, 19). -/
def SettlesNothing (c : Config) (e : Edge) : Prop :=
  e.load = false ∧ e.dropped = false ∧ ((unpack c e.cyc).rxValid = true → e.extra = true)

/-- Over an edge that settles nothing, the exchange under way stays the last begun and is still owed its event. -/
theorem owed_and_loaded_of_step {s t : State} (hstep : step s = .next t) (howed : s.owed = true)
    (he : SettlesNothing s.cfg (edgeIn s)) : t.owed = true ∧ t.loaded = s.loaded := by
  obtain ⟨hload, hdropped, hextra⟩ := he
  obtain ⟨hloaded, hiff⟩ := serializer_of_step hstep
  rw [hload] at hloaded
  exact ⟨hiff.2 ⟨.inr ⟨howed, hdropped⟩, fun ⟨hrx, hown⟩ => Bool.false_ne_true (hown.symm.trans (hextra hrx))⟩, hloaded⟩

/-- A run of one more edge that ends in a state steps to one and runs on from there. -/
theorem exists_step_of_run_succ {s t : State} {n : Nat} (h : core.run (n + 1) s = .next t) :
    ∃ u, step s = .next u ∧ core.run n u = .next t := by
  cases hstep : step s with
  | next u => exact ⟨u, rfl, (run_succ_of_next n hstep).symm.trans h⟩
  | fault r =>
    have hcore : core.step s = .fault r := hstep
    simp [Host.Core.run, hcore] at h
  | refused r =>
    have hcore : core.step s = .refused r := hstep
    simp [Host.Core.run, hcore] at h

/-- Over any edges that settle nothing, the exchange under way stays the last begun and is still owed its event. -/
theorem owed_of_run_settlesNothing {es rest : List Edge} {t : State} :
    ∀ {s : State}, s.owed = true → s.inputs = es ++ rest → core.run es.length s = .next t →
      (∀ x ∈ es, SettlesNothing s.cfg x) →
      t.owed = true ∧ t.loaded = s.loaded ∧ t.cfg = s.cfg ∧ t.inputs = rest := by
  induction es with
  | nil =>
    intro s howed hin hrun _
    cases hrun
    exact ⟨howed, rfl, rfl, hin⟩
  | cons e es ih =>
    intro s howed hin hrun hes
    obtain ⟨he, hrest⟩ := List.forall_mem_cons.1 hes
    obtain ⟨u, hstep, hrun'⟩ := exists_step_of_run_succ hrun
    obtain ⟨howed', hloaded⟩ := owed_and_loaded_of_step hstep howed (by rwa [edgeIn_of_inputs hin])
    have hcfg := configurationNeverChanges s u hstep
    have hin' : u.inputs = es ++ rest := by rw [inputs_of_step hstep, hin, List.cons_append, List.tail_cons]
    obtain ⟨howed'', hloaded', hcfg', hint⟩ := ih howed' hin' hrun' (by rwa [hcfg])
    exact ⟨howed'', hloaded'.trans hloaded, hcfg'.trans hcfg, hint⟩

/-- Settles O53: the edges before the load settle nothing, so at its edge the exchange is still owed its event. -/
theorem noLoadBeforeTheOwnEvent : Obligations.NoLoadBeforeTheOwnEvent := by
  intro s t es e rest howed hin hrun hes hw ha hload hdropped
  obtain ⟨howed', hloaded, hcfg, hint⟩ := owed_of_run_settlesNothing howed hin hrun hes
  have hedge := edgeIn_of_inputs hint
  rw [← hcfg] at hw ha
  rw [← hloaded]
  exact step_of_accepts_of_late (by rwa [hedge]) (by rwa [fieldsIn, hedge])
    (late_iff.2 ⟨by rwa [hedge], howed', by rwa [hedge]⟩)

end Sys2Proof.Machine
end

section
/-! PROOFS. The buffer's canonical form, which is the model's choice (log 8): equal contents are equal data. -/

namespace Sys2Proof.Machine

/-- In a rising memory the listed contents of a slot are the one entry of that slot. -/
theorem Memory.find_eq_some_iff_mem {m : Memory} (hrising : m.Pairwise (fun x y => x.1 < y.1)) (a : Nat) (v : Byte) :
    Memory.find m a = some v ↔ (a, v) ∈ m := by
  induction m with
  | nil => simp [Memory.find]
  | cons x m ih =>
    obtain ⟨b, w⟩ := x
    obtain ⟨hhead, htail⟩ := List.pairwise_cons.1 hrising
    by_cases hb : b = a
    · subst hb
      have hnot : (b, v) ∉ m := fun hmem => Nat.lt_irrefl b (hhead _ hmem)
      simp [Memory.find, hnot, eq_comm]
    · simp [Memory.find, hb, Ne.symm hb, ih htail]

/-- An entry of a canonical memory can be told from what its slot reads as: a slot is listed exactly when it does not read
as an unlisted one. -/
theorem Memory.mem_iff_of_wf {c : Config} {base : Nat} {m : Memory} (hwf : Memory.wf c base m) (x : Host.Cell) :
    x ∈ m ↔ (Memory.find m x.1).getD (unlisted c base x.1) = x.2 ∧ x.2 ≠ unlisted c base x.1 := by
  obtain ⟨hrising, hentries⟩ := hwf
  have hfind := Memory.find_eq_some_iff_mem hrising x.1 x.2
  constructor
  · intro hmem
    exact ⟨by rw [hfind.2 hmem, Option.getD_some], (hentries x hmem).2⟩
  · rintro ⟨hread, hne⟩
    cases hlisted : Memory.find m x.1 with
    | none => exact absurd (by rw [← hread, hlisted, Option.getD_none]) hne
    | some v => exact hfind.1 (by rw [← hread, hlisted, Option.getD_some])

/-- Settles O29: a canonical memory's entries are fixed by what its slots read as, and their order by the slots. -/
theorem equalContentsAreEqualData : Obligations.EqualContentsAreEqualData := by
  intro c base m m' hwf hwf' hread
  refine List.Pairwise.eq_of_mem_iff (r := Prod.fst ⁻¹'o (· < ·)) hwf.1 hwf'.1 fun x => ?_
  rw [Memory.mem_iff_of_wf hwf, Memory.mem_iff_of_wf hwf', hread]

end Sys2Proof.Machine
end
